-- ==== Sys2Proof/Word.lean ====
section
/-! DEFINITION. The word types (00_scope R7, R10, R11): every value is an unsigned bit vector of a fixed width. -/

namespace Sys2Proof

/-- A memory byte or a general register: 8 bits (10_state R22, 20_memory R50). -/
abbrev Byte := BitVec 8

/-- An instruction word, the program counter, the address register: 16 bits (00_scope R7). -/
abbrev Word := BitVec 16

/-- A 12-bit address operand `nnn` (30_encoding R76). -/
abbrev Addr12 := BitVec 12

/-- A 4-bit register index; all 16 name a register (10_state R23). -/
abbrev RegIdx := Fin 16

end Sys2Proof
end

