-- ==== Sys2Proof/Syntax.lean ====
section
/-! DEFINITION. The instructions: one constructor per row of spec/opcode_table.json, in its order (00_scope R2,
30_encoding R81). An unknown word is no instruction: the decoder answers `unknown` for it (30_encoding R86). -/

namespace Sys2Proof

/-- The six operations of the implemented subset. -/
inductive Instr where
  /-- CLS: clear screen, word 0x00E0 (43_display R135) -/
  | cls
  /-- JP nnn: jump, class 0x1 (41_control_flow R115) -/
  | jp (nnn : Addr12)
  /-- LD Vx, nn: set register, class 0x6 (42_register_ops R120) -/
  | ldVx (x : RegIdx) (nn : Byte)
  /-- ADD Vx, nn: add immediate, class 0x7 (42_register_ops R121) -/
  | addVx (x : RegIdx) (nn : Byte)
  /-- LD I, nnn: set address register, class 0xA (42_register_ops R123) -/
  | ldI (nnn : Addr12)
  /-- DRW Vx, Vy, n: draw a sprite of `n` rows, class 0xD (43_display R136); `n` is a count, its bound is in `wellFormed` -/
  | drw (x y : RegIdx) (n : Nat)
deriving DecidableEq, Repr

end Sys2Proof
end

