-- ==== Sys2Proof/WellFormed.lean ====
section
/-! DEFINITION. Which instructions have an encoding. The index, immediate and address operands are bounded by their types
(30_encoding R78, R79: every value of the field is legal); the sprite height is the one operand that is checked. -/

namespace Sys2Proof

/-- The height field holds 0 to 15 rows (30_encoding R78). -/
def heightOk (n : Nat) : Bool := decide (n ≤ 15)

/-- An instruction is well formed when each operand fits its field of the instruction word (30_encoding R76, R78). -/
def wellFormed : Instr → Bool
  | .cls => true
  | .jp _ => true
  | .ldVx _ _ => true
  | .addVx _ _ => true
  | .ldI _ => true
  | .drw _ _ n => heightOk n

end Sys2Proof
end

