-- ==== Sys2Proof/Decode.lean ====
section
/-! DEFINITION. Decoding and encoding (30_encoding). The decoder is total on words and on byte lists and rejects by name;
the encoder is written from the same table (30_encoding R81). -/

namespace Sys2Proof

/-! ## The fields of an instruction word (30_encoding R76) -/

/-- `cls = w[15:12]`, the operation class. -/
def fieldCls (w : Word) : BitVec 4 := w.extractLsb' 12 4

/-- `x = w[11:8]`, the first register index. -/
def fieldX (w : Word) : RegIdx := ⟨(w.extractLsb' 8 4).toNat, (w.extractLsb' 8 4).isLt⟩

/-- `y = w[7:4]`, the second register index. -/
def fieldY (w : Word) : RegIdx := ⟨(w.extractLsb' 4 4).toNat, (w.extractLsb' 4 4).isLt⟩

/-- `n = w[3:0]`, the sprite height, a count of rows. -/
def fieldN (w : Word) : Nat := (w.extractLsb' 0 4).toNat

/-- `nn = w[7:0]`, the 8-bit immediate. -/
def fieldNn (w : Word) : Byte := w.extractLsb' 0 8

/-- `nnn = w[11:0]`, the 12-bit address. -/
def fieldNnn (w : Word) : Addr12 := w.extractLsb' 0 12

/-! ## Words -/

/-- What a word decodes to: one of the six instructions, or UNKNOWN (30_encoding R80, R84). -/
inductive Decoded where
  /-- the word selects this instruction -/
  | op (i : Instr)
  /-- the word selects none of the six operations (30_encoding R86) -/
  | unknown
deriving DecidableEq, Repr

/-- `decode(w)` of 30_encoding R80: the whole word is compared with 0x00E0 first, then the class selects. Class 0 is
decoded by the full word only (R82). -/
def decodeWord (w : Word) : Decoded :=
  if w = 0x00E0#16 then .op .cls
  else if fieldCls w = 0x1#4 then .op (.jp (fieldNnn w))
  else if fieldCls w = 0x6#4 then .op (.ldVx (fieldX w) (fieldNn w))
  else if fieldCls w = 0x7#4 then .op (.addVx (fieldX w) (fieldNn w))
  else if fieldCls w = 0xA#4 then .op (.ldI (fieldNnn w))
  else if fieldCls w = 0xD#4 then .op (.drw (fieldX w) (fieldY w) (fieldN w))
  else .unknown

/-! ## Bytes -/

/-- Two bytes of memory as an instruction word, the byte at the lower address in bits 15..8 (20_memory R58). -/
def wordOfBytes (hi lo : Byte) : Word := hi ++ lo

/-- The byte of a word that stands at the lower address (20_memory R58). -/
def highByte (w : Word) : Byte := w.extractLsb' 8 8

/-- The byte of a word that stands at the higher address (20_memory R58). -/
def lowByte (w : Word) : Byte := w.extractLsb' 0 8

/-- Why a list of bytes gives no instruction. -/
inductive DecodeReject where
  /-- fewer than the two bytes of an instruction word (30_encoding R75) -/
  | tooShort
  /-- the word is an unknown word (30_encoding R86) -/
  | unknownWord (w : Word)
deriving DecidableEq, Repr

/-- The instruction at the head of a list of bytes and the bytes after it, or the reason there is none. -/
def decode : List Byte → Except DecodeReject (Instr × List Byte)
  | hi :: lo :: rest =>
    match decodeWord (wordOfBytes hi lo) with
    | .op i => .ok (i, rest)
    | .unknown => .error (.unknownWord (wordOfBytes hi lo))
  | [_] => .error .tooShort
  | [] => .error .tooShort

/-- The decoder on a word numbered as spec/opcode_table.json numbers it: bit 0 is the least significant bit of the one
16-bit word, bits above `nbits` are 0, and the bytes are laid out high byte first (20_memory R58). -/
def decodeTableWord (nbits w : Nat) : Option Instr :=
  match decode [highByte (BitVec.ofNat 16 (w % 2 ^ nbits)), lowByte (BitVec.ofNat 16 (w % 2 ^ nbits))] with
  | .ok (i, _) => some i
  | .error _ => none

/-! ## The encoder -/

/-- A register index as its 4-bit field. -/
def regBits (x : RegIdx) : BitVec 4 := BitVec.ofNat 4 x.val

/-- The word of an instruction, from the patterns of 30_encoding R81. An ill-formed height is cut to 4 bits. -/
def encode : Instr → Word
  | .cls => 0x00E0#16
  | .jp nnn => 0x1#4 ++ nnn
  | .ldVx x nn => (0x6#4 ++ regBits x) ++ nn
  | .addVx x nn => (0x7#4 ++ regBits x) ++ nn
  | .ldI nnn => 0xA#4 ++ nnn
  | .drw x y n => ((0xD#4 ++ regBits x) ++ regBits y) ++ BitVec.ofNat 4 n

/-- The two bytes of an instruction in the order of their addresses (20_memory R58). -/
def encodeBytes (i : Instr) : List Byte := [highByte (encode i), lowByte (encode i)]

/-! ## The opcode table as data (30_encoding R81) -/

/-- One row of the table: a word selects it when `(w &&& mask) = pattern`. -/
structure OpcodeRow where
  mnemonic : String
  pattern : Word
  mask : Word
deriving DecidableEq, Repr

/-- The six rows of 30_encoding R81. -/
def opcodeRows : List OpcodeRow :=
  [ ⟨"CLS", 0x00E0, 0xFFFF⟩,
    ⟨"JP_nnn", 0x1000, 0xF000⟩,
    ⟨"LD_Vx__nn", 0x6000, 0xF000⟩,
    ⟨"ADD_Vx__nn", 0x7000, 0xF000⟩,
    ⟨"LD_I__nnn", 0xA000, 0xF000⟩,
    ⟨"DRW_Vx__Vy__n", 0xD000, 0xF000⟩ ]

/-- "A word selects a row when `(w & mask) == match`" (30_encoding R81). -/
def OpcodeRow.selects (row : OpcodeRow) (w : Word) : Bool := (w &&& row.mask) == row.pattern

/-- The mnemonic of an instruction's row in spec/opcode_table.json. -/
def mnemonicOf : Instr → String
  | .cls => "CLS"
  | .jp _ => "JP_nnn"
  | .ldVx _ _ => "LD_Vx__nn"
  | .addVx _ _ => "ADD_Vx__nn"
  | .ldI _ => "LD_I__nnn"
  | .drw _ _ _ => "DRW_Vx__Vy__n"

end Sys2Proof
end

