-- ==== Sys2Proof/Config.lean ====
section
/-! DEFINITION. What is fixed for a machine: the fixed parameters of 00_scope R7 and R8 and the three behaviour
parameters of 00_scope R9. The parameters are no state (10_state R38); the functions that depend on one take a `Config`.
The values the spec uses by default stand in Sys2Proof/Machine/Defaults.lean. -/

namespace Sys2Proof

/-- MEM_SIZE (00_scope R7): addresses 0x000 to 0xFFF. -/
abbrev memSize : Nat := 4096

/-- PROG_START (00_scope R7): where a program is loaded and where it starts. -/
abbrev progStart : Nat := 0x200

/-- The longest program that fits, MEM_SIZE minus PROG_START (70_reset_and_hazards R192). -/
abbrev maxProgram : Nat := 0xE00

/-- REGS_AT_RESET (00_scope R9): what `V[0..15]` and `I` hold after a reset. -/
inductive RegsAtReset where
  /-- every register is 0 -/
  | zero
  /-- each register is a free value drawn at the reset -/
  | arbitrary
deriving DecidableEq, Repr

/-- The three parameters "the model takes as arguments" (00_scope R9). -/
structure Config where
  /-- REGS_AT_RESET -/
  regsAtReset : RegsAtReset
  /-- STRICT_DECODE: an unknown word faults (true) or is a no-op (false) -/
  strictDecode : Bool
  /-- CLS_SETS_DRAW: Clear screen sets the draw flag (true) or leaves it (false) -/
  clsSetsDraw : Bool
deriving DecidableEq, Repr

end Sys2Proof
end

