-- ==== Sys2Proof/Machine/Defaults.lean ====
section
/-! DEFINITION. The parameter values the fixed names `step`, `exec` and `State.reset` use: the defaults of 00_scope R9. -/

namespace Sys2Proof.Machine

/-- The defaults of 00_scope R9: REGS_AT_RESET = ZERO, STRICT_DECODE = 0, CLS_SETS_DRAW = 1.
DESIGN CHOICE (log entry 1), unsafe: the fixed names of the host take no parameter, so they stand for this
configuration; CLS_SETS_DRAW = 1 is the spec's deliberate deviation from the reference program (92_eei_decisions D11). -/
def defaultConfig : Config := { regsAtReset := .zero, strictDecode := false, clsSetsDraw := true }

end Sys2Proof.Machine
end

