-- ==== Sys2Proof/Machine/State.lean ====
section
/-! DEFINITION. The state of the core, exactly the table of 10_state R20, and its value after reset (10_state R48). -/

namespace Sys2Proof.Machine

/-- Why an instruction cycle or a load was ended by a fault: the legal values of `fault_cause` (10_state R39,
60_exceptions R161). -/
inductive FaultCause where
  /-- 0: no fault recorded -/
  | none
  /-- 1: a fetch past 0xFFF (40_cycle R97) -/
  | fetchOutOfBounds
  /-- 2: a sprite row past 0xFFF (43_display R138) -/
  | spriteMemOutOfBounds
  /-- 3: a set sprite bit outside the 64 x 32 grid (43_display R138) -/
  | spriteFbOutOfBounds
  /-- 4: an unknown word with STRICT_DECODE = 1 (40_cycle R104) -/
  | unknownOpcode
  /-- 5: a program file that could not be read or does not fit (70_reset_and_hazards R193) -/
  | loadFailure
deriving DecidableEq, Repr

/-- The Memory Image: the bytes that are not 0x00, by rising address (`Memory.wf` in Ops.lean). An unlisted address reads
0x00, the reset value of every byte (10_state R48, 90_conflicts C3). -/
structure Memory where
  cells : List Host.Cell
deriving DecidableEq, Repr

/-- The name of a framebuffer cell `FB[r][c]`: row 0..31 and column 0..63 (10_state R36). No other cell exists (R37). -/
abbrev Pixel := Fin 32 × Fin 64

/-- The framebuffer: 32 rows of 64 one-bit cells, row-major (10_state R36). -/
structure Framebuffer where
  rows : Vector (Vector Bool 64) 32
deriving DecidableEq, Repr

/-- Every cell off. -/
def Framebuffer.blank : Framebuffer := ⟨Vector.replicate 32 (Vector.replicate 64 false)⟩

/-- The architectural state of the core: exactly the rows of 10_state R20. -/
structure State where
  /-- `V[0..15]` (R22) -/
  v : Vector Byte 16
  /-- `I` (R28) -/
  i : Word
  /-- `pc` (R25) -/
  pc : Word
  /-- `sp` (R29); no instruction reads or writes it (R30) -/
  sp : Byte
  /-- `stack[0..15]` (R29); no instruction reads or writes it (R30) -/
  stack : Vector Word 16
  /-- `DT`, the delay timer stub (R31) -/
  dt : Byte
  /-- `ST`, the sound timer stub (R31) -/
  st : Byte
  /-- the running flag (R34) -/
  running : Bool
  /-- the draw flag (R35) -/
  draw : Bool
  /-- `FB` (R36) -/
  fb : Framebuffer
  /-- `Mem` (20_memory R50) -/
  mem : Memory
  /-- `fault_cause` (R39) -/
  faultCause : FaultCause
  /-- `fault_pc` (R39) -/
  faultPc : Word
deriving DecidableEq, Repr

/-- Reasons for which a step would stop the model itself. There is none: every fault of the spec has an entry the spec
describes (60_exceptions R166), so it is a next state with the fault recorded and the core halted (log entry 3). -/
inductive Fault : Type
deriving DecidableEq, Repr

/-- Reasons for which a step gives no meaning. -/
inductive Refusal where
  /-- an instruction without a meaning yet, by its mnemonic; raised by an arm of `exec` only. Safe. No arm of this model
  raises it: all six instructions have their meaning. -/
  | notModelled (mnemonic : String)
deriving DecidableEq, Repr

/-- The state after `reset` with the parameters `cfg` (70_reset_and_hazards R185, 10_state R48). `freeV` and `freeI` are
the values drawn for `V[0..15]` and `I` under REGS_AT_RESET = ARBITRARY; under ZERO they are not used. -/
def State.resetWith (cfg : Config) (freeV : Vector Byte 16) (freeI : Word) : State where
  v := match cfg.regsAtReset with
    | .zero => Vector.replicate 16 0
    | .arbitrary => freeV
  i := match cfg.regsAtReset with
    | .zero => 0
    | .arbitrary => freeI
  pc := BitVec.ofNat 16 progStart
  sp := 0
  stack := Vector.replicate 16 0
  dt := 0
  st := 0
  running := false
  draw := false
  fb := Framebuffer.blank
  mem := ⟨[]⟩
  faultCause := .none
  faultPc := 0

/-- The machine right after reset, with the default parameters (10_state R48). -/
def State.reset : State := State.resetWith defaultConfig (Vector.replicate 16 0) 0

end Sys2Proof.Machine
end

