-- ==== Sys2Proof/Machine/Ops.lean ====
section
/-! DEFINITION. The named operations over memory, framebuffer and registers, the fetch of an instruction word, and taking
a fault. Every read and write of a meaning goes through these. -/

namespace Sys2Proof.Machine

/-! ## Memory (20_memory) -/

/-- The byte listed for an address, 0x00 where none is listed. -/
def lookupCell (a : Nat) : List Host.Cell → Byte
  | [] => 0#8
  | (k, b) :: rest => if a = k then b else lookupCell a rest

/-- `Mem[a]` for an address of the memory. -/
def Memory.byteAt (m : Memory) (a : Nat) : Byte := lookupCell a m.cells

/-- `MemRead(a, 1)` with the check that stands before it (20_memory R56): `none` where the address is past 0xFFF, as an
exact number, never reduced. -/
def Memory.read? (m : Memory) (a : Nat) : Option Byte := if a > 0xFFF then none else some (m.byteAt a)

/-- The cells after a byte is written, in canonical form: rising addresses, no 0x00 listed. -/
def storeCell (a : Nat) (b : Byte) : List Host.Cell → List Host.Cell
  | [] => if b = 0#8 then [] else [(a, b)]
  | (k, c) :: rest =>
    if a < k then
      if b = 0#8 then (k, c) :: rest else (a, b) :: (k, c) :: rest
    else if a = k then
      if b = 0#8 then rest else (a, b) :: rest
    else (k, c) :: storeCell a b rest

/-- `MemWrite(a, 1, b)`, used by the loader only (00_scope R12, 20_memory R63) and only for addresses of the memory. -/
def Memory.write (m : Memory) (a : Nat) (b : Byte) : Memory := ⟨storeCell a b m.cells⟩

/-- Every listed address is at least `lo`, below MEM_SIZE and above the one before it, and no listed byte is 0x00. -/
def cellsWf (lo : Nat) : List Host.Cell → Bool
  | [] => true
  | (k, b) :: rest => decide (lo ≤ k) && decide (k < memSize) && decide (b ≠ 0#8) && cellsWf (k + 1) rest

/-- The canonical form of a memory, so that equal memories are equal data. -/
def Memory.wf (m : Memory) : Bool := cellsWf 0 m.cells

/-- Consecutive bytes written from address `a` up, in order (70_reset_and_hazards R191). -/
def Memory.writeBytes (m : Memory) (a : Nat) : List Byte → Memory
  | [] => m
  | b :: bs => (m.write a b).writeBytes (a + 1) bs

/-! ## Framebuffer (10_state R36, R37) -/

/-- The cell `FB[r][c]` by its coordinates, `none` where it does not exist: each coordinate is checked on its own
(10_state R37, 43_display R138). -/
def pixel? (r c : Nat) : Option Pixel :=
  if h : r < 32 ∧ c < 64 then some (⟨r, h.1⟩, ⟨c, h.2⟩) else none

/-- Read a cell. -/
def Framebuffer.get (fb : Framebuffer) (p : Pixel) : Bool := (fb.rows[p.1])[p.2]

/-- `FB[r][c] <- FB[r][c] XOR 1` (43_display R136). -/
def Framebuffer.toggle (fb : Framebuffer) (p : Pixel) : Framebuffer :=
  ⟨fb.rows.set p.1 ((fb.rows[p.1]).set p.2 (fb.get p ^^ true))⟩

/-- The framebuffer as the 2048-element sequence of 10_state R37: cell `FB[r][c]` is element `r * 64 + c`. -/
def Framebuffer.rowMajor (fb : Framebuffer) : List Bool := fb.rows.toList.flatMap Vector.toList

/-! ## Registers -/

/-- `V[x]` (10_state R22). -/
def State.readV (s : State) (x : RegIdx) : Byte := s.v[x]

/-- `V[x] <- b`; no other register changes (10_state R22). -/
def State.setV (s : State) (x : RegIdx) (b : Byte) : State := { s with v := s.v.set x b }

/-- `I <- a`. -/
def State.setI (s : State) (a : Word) : State := { s with i := a }

/-- `pc <- a`. -/
def State.setPc (s : State) (a : Word) : State := { s with pc := a }

/-- The framebuffer becomes `fb`. -/
def State.setFb (s : State) (fb : Framebuffer) : State := { s with fb := fb }

/-- `draw <- b`. -/
def State.setDraw (s : State) (b : Bool) : State := { s with draw := b }

/-! ## Fetch (40_cycle R96, R97) -/

/-- The word fetched at `pc`, high byte first (20_memory R58), or `none` where the fetch would read past 0xFFF (40_cycle
R97). Any address of the memory will do, odd or even, the reserved low region included (20_memory R55, R60). -/
def fetchWord? (m : Memory) (pc : Word) : Option Word :=
  if pc.toNat + 1 > 0xFFF then none
  else some (wordOfBytes (m.byteAt pc.toNat) (m.byteAt (pc.toNat + 1)))

/-- The fetch's advance, made before the execute phase (40_cycle R96). -/
def State.advance (s : State) : State := s.setPc (s.pc + 2)

/-- `A`, the address of the instruction whose execute phase sees this state: "the execute phase of every instruction sees
`pc = A + 2`" (40_cycle R102; log entry 4). -/
def State.instrAddr (s : State) : Word := s.pc - 2

/-! ## Taking a fault (60_exceptions R166)

There is no return from a fault (60_exceptions R169): the way out is a reset and a successful load, in Boundary.lean. -/

/-- `raise Fault(cause, a)`: the cause and the address are recorded and the core halts; nothing else changes. -/
def State.raiseFault (s : State) (cause : FaultCause) (a : Word) : State :=
  { s with faultCause := cause, faultPc := a, running := false }

/-- The number of a cause, as `fault_cause` shows it to the host: 3 bits (10_state R39, 60_exceptions R161). -/
def causeCode : FaultCause → BitVec 3
  | .none => 0
  | .fetchOutOfBounds => 1
  | .spriteMemOutOfBounds => 2
  | .spriteFbOutOfBounds => 3
  | .unknownOpcode => 4
  | .loadFailure => 5

end Sys2Proof.Machine
end

