-- ==== Sys2Proof/Machine/Operands.lean ====
section
/-! DEFINITION. The operand forms: the zero-extended address operand and the sprite that Draw sprite takes from memory,
with the checks of its first phase (43_display R136, R138, R140). -/

namespace Sys2Proof.Machine

/-- `zext_16(nnn)` (30_encoding R78): the address operand as a 16-bit value, 0x000 to 0xFFF. -/
def addrOperand (nnn : Addr12) : Word := nnn.setWidth 16

/-- Bit `c` of a sprite row, counted from the most significant bit: column `vx + c` (43_display R140). -/
def spriteBit (row : Byte) (c : Nat) : Bool := row.getLsbD (7 - c)

/-- The cells under the set bits of one sprite row, columns `c` to `c + k - 1`, in order; the fault of the first set bit
that falls outside the grid. A clear bit is no access (43_display R138). -/
def rowTargets (row : Byte) (vx screenRow c : Nat) : Nat → Except FaultCause (List Pixel)
  | 0 => .ok []
  | k + 1 =>
    if spriteBit row c then
      match pixel? screenRow (vx + c) with
      | none => .error .spriteFbOutOfBounds
      | some p =>
        match rowTargets row vx screenRow (c + 1) k with
        | .error e => .error e
        | .ok ps => .ok (p :: ps)
    else rowTargets row vx screenRow (c + 1) k

/-- Phase 1 of Draw sprite (43_display R136) for the rows `r` to `r + k - 1`: every access is checked, in the order row
memory, row bits, next row; the answer is the cells to toggle, in order, or the cause of the first access out of bounds.
`addr + r`, `vx + c` and `vy + r` are exact sums (43_display R138). -/
def spriteTargets (m : Memory) (addr vx vy r : Nat) : Nat → Except FaultCause (List Pixel)
  | 0 => .ok []
  | k + 1 =>
    match m.read? (addr + r) with
    | none => .error .spriteMemOutOfBounds
    | some row =>
      match rowTargets row vx (vy + r) 0 8 with
      | .error e => .error e
      | .ok ps =>
        match spriteTargets m addr vx vy (r + 1) k with
        | .error e => .error e
        | .ok qs => .ok (ps ++ qs)

end Sys2Proof.Machine
end

