-- ==== Sys2Proof/Machine/Control.lean ====
section
/-! DEFINITION. Control transfer: JP (41_control_flow). -/

namespace Sys2Proof.Machine

/-- JP nnn (41_control_flow R115): `pc <- zext_16(nnn)`; the fetch's advance is overwritten, the target is not checked. -/
def execJp (nnn : Addr12) (s : State) : Host.Outcome State Fault Refusal :=
  .next (s.setPc (addrOperand nnn))

end Sys2Proof.Machine
end

