-- ==== Sys2Proof/Machine/Flags.lean ====
section
/-! DEFINITION. The flags: the collision flag that Draw sprite writes to `V[15]` (43_display R139, 10_state R33) and the
draw flag (10_state R35). The core has no other flag; Add immediate writes none (42_register_ops R121). -/

namespace Sys2Proof.Machine

/-- FLAG_REG (00_scope R7): `V[15]`. -/
def flagReg : RegIdx := 15

/-- The value of the collision flag: 1 if a set sprite bit fell on a cell that was on, else 0 (43_display R139). -/
def collisionFlag (hit : Bool) : Byte := if hit then 1 else 0

/-- The draw flag after Clear screen: set when CLS_SETS_DRAW = 1, else kept (43_display R135). -/
def drawAfterCls (cfg : Config) (draw : Bool) : Bool := if cfg.clsSetsDraw then true else draw

end Sys2Proof.Machine
end

