-- ==== Sys2Proof/Machine/Display.lean ====
section
/-! DEFINITION. Display operations: CLS and DRW (43_display). -/

namespace Sys2Proof.Machine

/-- CLS with the parameters `cfg` (43_display R135): every cell off; the draw flag by CLS_SETS_DRAW. -/
def clearScreen (cfg : Config) (s : State) : Host.Outcome State Fault Refusal :=
  .next ((s.setFb Framebuffer.blank).setDraw (drawAfterCls cfg s.draw))

/-- CLS with the default parameters. -/
def execCls (s : State) : Host.Outcome State Fault Refusal := clearScreen defaultConfig s

/-- Phase 2 of Draw sprite (43_display R136): toggle the cells in order; the answer also says whether some cell was on
just before its toggle. -/
def toggleAll (fb : Framebuffer) : List Pixel → Framebuffer × Bool
  | [] => (fb, false)
  | p :: ps => ((toggleAll (fb.toggle p) ps).1, fb.get p || (toggleAll (fb.toggle p) ps).2)

/-- DRW Vx, Vy, n (43_display R136): the coordinates are read first (R137), every access is checked before any write
(R138); then the cells are toggled, `V[15]` is the collision flag (R139) and the draw flag is set (R141). The first
access out of bounds is the fault taken, at the instruction's address. -/
def execDrw (x y : RegIdx) (n : Nat) (s : State) : Host.Outcome State Fault Refusal :=
  match spriteTargets s.mem s.i.toNat (s.readV x).toNat (s.readV y).toNat 0 n with
  | .error cause => .next (s.raiseFault cause s.instrAddr)
  | .ok targets =>
    .next (((s.setV flagReg (collisionFlag (toggleAll s.fb targets).2)).setFb (toggleAll s.fb targets).1).setDraw true)

end Sys2Proof.Machine
end

