-- ==== Sys2Proof/Machine/Register.lean ====
section
/-! DEFINITION. Register operations: LD Vx, ADD Vx, LD I (42_register_ops). -/

namespace Sys2Proof.Machine

/-- LD Vx, nn (42_register_ops R120): `V[x] <- nn`. -/
def execLdVx (x : RegIdx) (nn : Byte) (s : State) : Host.Outcome State Fault Refusal :=
  .next (s.setV x nn)

/-- ADD Vx, nn (42_register_ops R121): `V[x] <- (V[x] + nn) mod 256`; the 8-bit sum wraps and no flag is written. -/
def execAddVx (x : RegIdx) (nn : Byte) (s : State) : Host.Outcome State Fault Refusal :=
  .next (s.setV x (s.readV x + nn))

/-- LD I, nnn (42_register_ops R123): `I <- zext_16(nnn)`, not checked against the memory's bounds. -/
def execLdI (nnn : Addr12) (s : State) : Host.Outcome State Fault Refusal :=
  .next (s.setI (addrOperand nnn))

end Sys2Proof.Machine
end

