-- ==== Sys2Proof/Machine/Dispatch.lean ====
section
/-! DEFINITION. The dispatcher (40_cycle R99): one arm per instruction, in the order of the opcode table, with the default
parameters. The execute phase sees `pc = A + 2` (40_cycle R102). -/

namespace Sys2Proof.Machine

def exec (i : Instr) (s : State) : Host.Outcome State Fault Refusal :=
  match i with
  | .cls => Sys2Proof.Machine.execCls s
  | .jp nnn => Sys2Proof.Machine.execJp nnn s
  | .ldVx x nn => Sys2Proof.Machine.execLdVx x nn s
  | .addVx x nn => Sys2Proof.Machine.execAddVx x nn s
  | .ldI nnn => Sys2Proof.Machine.execLdI nnn s
  | .drw x y n => Sys2Proof.Machine.execDrw x y n s

end Sys2Proof.Machine
end

