-- ==== Sys2Proof/Machine/Unknown.lean ====
section
/-! DEFINITION. What the execute phase does for an unknown word (40_cycle R103, R104). -/

namespace Sys2Proof.Machine

/-- An unknown word: nothing with STRICT_DECODE = 0 (40_cycle R103); the fault UnknownOpcode at the word's address with
STRICT_DECODE = 1 (40_cycle R104). -/
def execUnknown (cfg : Config) (s : State) : Host.Outcome State Fault Refusal :=
  if cfg.strictDecode then .next (s.raiseFault .unknownOpcode s.instrAddr) else .next s

end Sys2Proof.Machine
end

