-- ==== Sys2Proof/Machine/Step.lean ====
section
/-! DEFINITION. The instruction cycle (40_cycle R95) and the host's way to place one instruction where the next step
fetches it. -/

namespace Sys2Proof.Machine

/-- The execute phase with the parameters `cfg`: only Clear screen depends on one (CLS_SETS_DRAW). -/
def execWith (cfg : Config) (i : Instr) (s : State) : Host.Outcome State Fault Refusal :=
  match i with
  | .cls => clearScreen cfg s
  | .jp nnn => exec (.jp nnn) s
  | .ldVx x nn => exec (.ldVx x nn) s
  | .addVx x nn => exec (.addVx x nn) s
  | .ldI nnn => exec (.ldI nnn) s
  | .drw x y n => exec (.drw x y n) s

/-- One step with the parameters `cfg` (40_cycle R95): nothing when the core is halted (R110); else the bound check
(R97), the fetch and the advance (R96), decode (R98) and execute (R99). -/
def stepWith (cfg : Config) (s : State) : Host.Outcome State Fault Refusal :=
  if s.running then
    match fetchWord? s.mem s.pc with
    | none => .next (s.raiseFault .fetchOutOfBounds s.pc)
    | some w =>
      match decodeWord w with
      | .op i => execWith cfg i s.advance
      | .unknown => execUnknown cfg s.advance
  else .next s

/-- One step with the default parameters. -/
def step (s : State) : Host.Outcome State Fault Refusal := stepWith defaultConfig s

/-- The address the next step can fetch from: `pc`, or PROG_START where no fetch succeeds at `pc` (40_cycle R97). -/
def fetchAddr (s : State) : Word :=
  if s.pc.toNat + 1 > 0xFFF then BitVec.ofNat 16 progStart else s.pc

/-- The state with the table word `w` (its bits above `nbits` 0) stored where the next step fetches, and the core
running, so that the next step runs it. It stands for the load of a program from outside (log entry 6). -/
def State.withFetchWord (s : State) (nbits w : Nat) : State :=
  { s with
    pc := fetchAddr s
    running := true
    mem := s.mem.writeBytes (fetchAddr s).toNat
      [highByte (BitVec.ofNat 16 (w % 2 ^ nbits)), lowByte (BitVec.ofNat 16 (w % 2 ^ nbits))] }

end Sys2Proof.Machine
end

