-- ==== Sys2Proof/Machine/Boundary.lean ====
section
/-! DEFINITION. The block's transaction-level interface (10_state R41): what the host does between steps, the read ports,
the run loop (40_cycle R109), and which event is part of the interface when (70_reset_and_hazards R194). -/

namespace Sys2Proof.Machine

/-! ## Loader (70_reset_and_hazards R191 to R193) -/

/-- A program file: its bytes, or `none` where it cannot be opened. -/
abbrev ProgramFile := Option (List Byte)

/-- A failed load (70_reset_and_hazards R193): LoadFailure is recorded; no byte is written, `fault_pc` and `running` stay. -/
def loadFailed (s : State) : State := { s with faultCause := .loadFailure }

/-- `load(bytes)`: the bytes verbatim from PROG_START up and the core running (70_reset_and_hazards R191, R192), or a
failed load where the file cannot be opened or is longer than 0xE00 bytes (R193). -/
def load (file : ProgramFile) (s : State) : State :=
  match file with
  | none => loadFailed s
  | some bytes =>
    if bytes.length > maxProgram then loadFailed s
    else { s with mem := s.mem.writeBytes progStart bytes, running := true }

/-! ## The other inputs -/

/-- `quit`: clears `running`, nothing else (40_cycle R111). -/
def quit (s : State) : State := { s with running := false }

/-- `render_ack`: clears `draw`, nothing else (10_state R45). -/
def renderAck (s : State) : State := { s with draw := false }

/-! ## The read ports -/

/-- `fb_view`: the read-only view of the framebuffer (10_state R41). -/
def fbView (s : State) : Framebuffer := s.fb

/-- What a render consumes: the host reads `fb_view` only when `draw = 1` (10_state R45). -/
def renderInput (s : State) : Option Framebuffer := if s.draw then some (fbView s) else none

/-- `fault_cause` as the 3-bit output (10_state R39). -/
def faultCauseOut (s : State) : BitVec 3 := causeCode s.faultCause

/-- `fault_pc` as the output (10_state R39). -/
def faultPcOut (s : State) : Word := s.faultPc

/-- What `debug_read` returns beside memory (60_exceptions R178). -/
structure DebugRegisters where
  v : Vector Byte 16
  i : Word
  pc : Word
  sp : Byte
  stack : Vector Word 16
  dt : Byte
  st : Byte
deriving DecidableEq, Repr

/-- `debug_read` of the registers; it changes no state (60_exceptions R178). -/
def debugReadRegisters (s : State) : DebugRegisters :=
  { v := s.v, i := s.i, pc := s.pc, sp := s.sp, stack := s.stack, dt := s.dt, st := s.st }

/-- `debug_read` of a memory byte, for the addresses of the memory (60_exceptions R178). -/
def debugReadByte (s : State) (a : Nat) : Option Byte := s.mem.read? a

/-! ## The run loop (40_cycle R109) -/

/-- What the host's side of one iteration of the run loop answers. -/
structure HostTurn where
  /-- the event poll returns quit -/
  quitSeen : Bool
  /-- the host renders although the core has halted; whether it does is outside the block (70_reset_and_hazards R200) -/
  renderAfterHalt : Bool
deriving DecidableEq, Repr

/-- The poll and the conditional render that follow a step: quit if the poll says so; then, if `draw = 1`, a render and its
acknowledge. After a halt the render is the host's choice (70_reset_and_hazards R200; log entry 9). -/
def afterStep (turn : HostTurn) (s : State) : State :=
  let polled := if turn.quitSeen then quit s else s
  if polled.draw && (polled.running || turn.renderAfterHalt) then renderAck polled else polled

/-- One iteration of the run loop, made while `running = 1`: a step, the poll, the conditional render (40_cycle R109). -/
def runLoopTurn (cfg : Config) (turn : HostTurn) (s : State) : Host.Outcome State Fault Refusal :=
  if s.running then
    match stepWith cfg s with
    | .next t => .next (afterStep turn t)
    | .fault e => .fault e
    | .refused e => .refused e
  else .next s

/-! ## Which events are part of the interface -/

/-- An input of the block (10_state R41). -/
inductive HostEvent where
  /-- `reset`; the values are those drawn under REGS_AT_RESET = ARBITRARY -/
  | reset (freeV : Vector Byte 16) (freeI : Word)
  /-- `load(bytes)` -/
  | load (file : ProgramFile)
  /-- `step` -/
  | step
  /-- `quit` -/
  | quit
  /-- `render_ack` -/
  | renderAck
deriving DecidableEq, Repr

/-- The core and whether a load is still part of the interface: "a load happens only after `reset` and before the first
`step`" (70_reset_and_hazards R194). The flag is the model's own, no state of the core (log entry 8). -/
structure Block where
  core : State
  loadOpen : Bool
deriving DecidableEq, Repr

/-- One event at the block, or `none` where the event is no part of the interface: a load outside its window. A load,
successful or failed, and a step each close the window (log entry 8). -/
def blockEvent (cfg : Config) (b : Block) : HostEvent → Option Block
  | .reset freeV freeI => some ⟨State.resetWith cfg freeV freeI, true⟩
  | .load file => if b.loadOpen then some ⟨load file b.core, false⟩ else none
  | .step =>
    match stepWith cfg b.core with
    | .next t => some ⟨t, false⟩
    | .fault _ => none
    | .refused _ => none
  | .quit => some ⟨quit b.core, b.loadOpen⟩
  | .renderAck => some ⟨renderAck b.core, b.loadOpen⟩

end Sys2Proof.Machine
end

