-- ==== Sys2Proof/Safety.lean ====
section
/-! DEFINITION. The terms claims are stated in: halting, the invariants of the core, the closed form of a sprite (what
Draw sprite does, said cell by cell and not by its loops), and the runs of the block. -/

namespace Sys2Proof.Machine

/-! ## Halting (40_cycle R110, R112) -/

/-- The core takes no further step (40_cycle R110). -/
abbrev State.Halted (s : State) : Prop := s.running = false

/-- The run has ended cleanly, by quit (40_cycle R112). -/
abbrev State.EndedCleanly (s : State) : Prop := s.Halted ∧ s.faultCause = .none

/-- The run has ended by a fault (40_cycle R112). -/
abbrev State.EndedByFault (s : State) : Prop := s.Halted ∧ s.faultCause ≠ .none

/-! ## The word at the program counter (40_cycle R96, R97) -/

/-- The core may step and the fetch is in bounds. -/
abbrev State.CanFetch (s : State) : Prop := s.running = true ∧ s.pc.toNat + 1 ≤ 0xFFF

/-- The two bytes at `pc`, the byte at the lower address in bits 15..8 (20_memory R58). -/
def State.wordAtPc (s : State) : Word := wordOfBytes (s.mem.byteAt s.pc.toNat) (s.mem.byteAt (s.pc.toNat + 1))

/-! ## Invariants -/

/-- The memory is in canonical form, `pc <= 0x1000` (10_state R27), and a core that may step has no fault recorded (10_state
R34, 60_exceptions R166, R169). -/
structure State.Inv (s : State) : Prop where
  memory : s.mem.wf = true
  pcBound : s.pc.toNat ≤ 0x1000
  noFaultWhileRunning : s.running = true → s.faultCause = .none
  addressOfNoFault : s.faultCause = .none → s.faultPc = 0

/-- `I <= 0xFFF` (10_state R28), which holds at all times under REGS_AT_RESET = ZERO. -/
abbrev State.AddressBounded (s : State) : Prop := s.i.toNat ≤ 0xFFF

/-- The stack, `sp` and the timers hold their reset values (10_state R30, R31). -/
abbrev State.StubsAtReset (s : State) : Prop :=
  s.sp = 0 ∧ s.stack = Vector.replicate 16 0 ∧ s.dt = 0 ∧ s.st = 0

/-! ## The sprite in closed form (43_display R137 to R140) -/

/-- Sprite row `r` of the sprite at `I`: the byte `Mem[I + r]` (43_display R140). -/
def spriteRow (s : State) (r : Nat) : Byte := s.mem.byteAt (s.i.toNat + r)

/-- The set bits of the sprite: row `r`, column `c` counted from the most significant bit (43_display R140). -/
def spriteBitSet (s : State) (r c : Nat) : Bool := (spriteRow s r).getLsbD (7 - c)

/-- Row `r` of the sprite makes no access out of bounds when drawn at column `V[x]`, row `V[y]`: its byte is in memory and
each set bit falls on the 64 x 32 grid, each coordinate on its own (43_display R138). -/
abbrev RowInBounds (x y : RegIdx) (s : State) (r : Nat) : Prop :=
  s.i.toNat + r ≤ 0xFFF ∧
  ∀ c, c < 8 → spriteBitSet s r c = true → (s.readV x).toNat + c ≤ 63 ∧ (s.readV y).toNat + r ≤ 31

/-- Every access of the sprite is in bounds. -/
abbrev SpriteInBounds (x y : RegIdx) (n : Nat) (s : State) : Prop := ∀ r, r < n → RowInBounds x y s r

/-- The cell lies under a set bit of the sprite: sprite row `r` goes to screen row `V[y] + r`, bit `c` to screen column
`V[x] + c` (43_display R137). -/
abbrev UnderSprite (x y : RegIdx) (n : Nat) (s : State) (p : Pixel) : Prop :=
  ∃ r, r < n ∧ ∃ c, c < 8 ∧ spriteBitSet s r c = true ∧
    p.1.val = (s.readV y).toNat + r ∧ p.2.val = (s.readV x).toNat + c

/-- The sprite has a set bit. -/
abbrev SpriteHasSetBit (n : Nat) (s : State) : Prop := ∃ r, r < n ∧ ∃ c, c < 8 ∧ spriteBitSet s r c = true

/-- Some set sprite bit falls on a cell that is on (43_display R139). -/
abbrev Collides (x y : RegIdx) (n : Nat) (s : State) : Prop := ∃ p, UnderSprite x y n s p ∧ s.fb.get p = true

/-- The framebuffer and the flag a completed draw leaves: cells under a set bit complemented, the others kept, and the flag 1
exactly when some set bit fell on a cell that was on, else 0 (43_display R139). -/
structure SpriteDrawn (x y : RegIdx) (n : Nat) (s : State) (f : Framebuffer) (flag : Byte) : Prop where
  under : ∀ p, UnderSprite x y n s p → f.get p = !s.fb.get p
  elsewhere : ∀ p, ¬ UnderSprite x y n s p → f.get p = s.fb.get p
  hit : Collides x y n s → flag = 1#8
  noHit : ¬ Collides x y n s → flag = 0#8

/-- The core can fetch, and the word at `pc` matches 0xD000 under the mask 0xF000 with the fields `x`, `y` and `n`
(43_display R136, 30_encoding R76). -/
abbrev State.AtDrawWord (s : State) (x y : RegIdx) (n : Nat) : Prop :=
  s.CanFetch ∧ s.wordAtPc &&& 0xF000#16 = 0xD000#16 ∧ (s.wordAtPc.extractLsb' 8 4).toNat = x.val ∧
  (s.wordAtPc.extractLsb' 4 4).toNat = y.val ∧ (s.wordAtPc.extractLsb' 0 4).toNat = n

/-- Row `r` makes the first access out of bounds, and it is the read of its byte (43_display R138). -/
abbrev FirstFaultIsMemory (x y : RegIdx) (n : Nat) (s : State) (r : Nat) : Prop :=
  r < n ∧ (∀ q, q < r → RowInBounds x y s q) ∧ s.i.toNat + r > 0xFFF

/-- Row `r` makes the first access out of bounds, and it is a set bit outside the grid (43_display R138). -/
abbrev FirstFaultIsPixel (x y : RegIdx) (n : Nat) (s : State) (r : Nat) : Prop :=
  r < n ∧ (∀ q, q < r → RowInBounds x y s q) ∧ s.i.toNat + r ≤ 0xFFF ∧
  ∃ c, c < 8 ∧ spriteBitSet s r c = true ∧ ((s.readV x).toNat + c > 63 ∨ (s.readV y).toNat + r > 31)

/-! ## What an instruction may change -/

/-- The general registers an instruction writes (10_state R20, R24). -/
def writesRegister (i : Instr) (k : RegIdx) : Prop :=
  match i with
  | .cls => False
  | .jp _ => False
  | .ldVx x _ => k = x
  | .addVx x _ => k = x
  | .ldI _ => False
  | .drw _ _ _ => k = flagReg

/-- Where an instruction that completes leaves `pc`, given the `pc = A + 2` its execute phase sees (10_state R26). -/
def pcAfter (i : Instr) (pc : Word) : Word :=
  match i with
  | .cls => pc
  | .jp nnn => addrOperand nnn
  | .ldVx _ _ => pc
  | .addVx _ _ => pc
  | .ldI _ => pc
  | .drw _ _ _ => pc

/-- The state with other values in the stack, `sp` and the timers. -/
def State.withStubs (s : State) (sp : Byte) (stack : Vector Word 16) (dt st : Byte) : State :=
  { s with sp := sp, stack := stack, dt := dt, st := st }

/-! ## Runs -/

/-- The steps of a core with the parameters `cfg`, `k` of them. -/
def stepsWith (cfg : Config) : Nat → State → Host.Outcome State Fault Refusal
  | 0, s => .next s
  | k + 1, s =>
    match stepWith cfg s with
    | .next t => stepsWith cfg k t
    | .fault e => .fault e
    | .refused e => .refused e

/-- What holds of a block at the host's boundary: the core's invariants; `I <= 0xFFF` under REGS_AT_RESET = ZERO (10_state R28);
and while a load is still part of the interface (70_reset_and_hazards R194) the core has not run and memory is empty. -/
structure Block.Inv (cfg : Config) (b : Block) : Prop where
  core : b.core.Inv
  stubs : b.core.StubsAtReset
  address : cfg.regsAtReset = .zero → b.core.AddressBounded
  fresh : b.loadOpen = true → b.core.running = false ∧ b.core.faultCause = .none ∧ ∀ a, b.core.mem.byteAt a = 0#8

/-- The blocks a host can bring about: a reset, then any events that are part of the interface (10_state R41). -/
inductive Reachable (cfg : Config) : Block → Prop where
  | reset (freeV : Vector Byte 16) (freeI : Word) : Reachable cfg ⟨State.resetWith cfg freeV freeI, true⟩
  | event (b b' : Block) (e : HostEvent) : Reachable cfg b → blockEvent cfg b e = some b' → Reachable cfg b'

end Sys2Proof.Machine
end

