-- ==== Sys2Proof/Certificates/Slice0/Obligations.lean ====
section
/-! DEFINITION. The statements about the model, for the provers. Each docstring names the rule it formalises. -/

open Sys2Proof Sys2Proof.Machine

/-! ## Encoding -/

/-- 30_encoding R80, R81 on the words of the spec's own vectors (95_test_vectors V15, V6 to V9, E2 to E7). -/
def Obligations.SpecWordsDecodeAsWritten : Prop :=
  decodeWord 0x00E0#16 = .op .cls ∧
  decodeWord 0x1234#16 = .op (.jp 0x234#12) ∧ decodeWord 0x10E0#16 = .op (.jp 0x0E0#12) ∧
  decodeWord 0x6005#16 = .op (.ldVx 0 0x05#8) ∧ decodeWord 0x6FFF#16 = .op (.ldVx 15 0xFF#8) ∧
  decodeWord 0x7003#16 = .op (.addVx 0 0x03#8) ∧ decodeWord 0x7F05#16 = .op (.addVx 15 0x05#8) ∧
  decodeWord 0xA200#16 = .op (.ldI 0x200#12) ∧ decodeWord 0xA0E0#16 = .op (.ldI 0x0E0#12) ∧
  decodeWord 0xD012#16 = .op (.drw 0 1 2) ∧ decodeWord 0xDFFF#16 = .op (.drw 15 15 15) ∧
  decodeWord 0x0000#16 = .unknown ∧ decodeWord 0x00EE#16 = .unknown ∧ decodeWord 0x00E1#16 = .unknown ∧
  decodeWord 0x8014#16 = .unknown ∧ decodeWord 0x2345#16 = .unknown ∧ decodeWord 0xF000#16 = .unknown ∧
  decodeWord 0xE09E#16 = .unknown

/-- 30_encoding R76, R78, R81: the decoder reads back every operand of every well-formed instruction, from the word, from
the bytes in front of any other bytes, and from the table's numbering of the word. -/
def Obligations.DecodingEncodedInstructionsGivesThemBack : Prop :=
  ∀ i : Instr, wellFormed i = true →
    decodeWord (encode i) = .op i ∧
    (∀ rest : List Byte, decode (encodeBytes i ++ rest) = .ok (i, rest)) ∧
    decodeTableWord 16 (encode i).toNat = some i

/-- 30_encoding R84, R85: a word that decodes to an instruction is that instruction's one encoding, and the instruction is
well formed. -/
def Obligations.EncodingDecodedWordsGivesThemBack : Prop :=
  ∀ (w : Word) (i : Instr), decodeWord w = .op i → wellFormed i = true ∧ encode i = w

/-- 30_encoding R81: a word selects exactly one row of the table, its instruction's, or none, and then it is unknown. -/
def Obligations.WordsSelectOneRowOrNone : Prop :=
  ∀ w : Word,
    (decodeWord w = .unknown ↔ ∀ row, row ∈ opcodeRows → row.selects w = false) ∧
    ∀ i, decodeWord w = .op i →
      ∀ row, row ∈ opcodeRows → (row.selects w = true ↔ row.mnemonic = mnemonicOf i)

/-- 30_encoding R82 (the spec's decision D10) and R86: the unknown words are those of the ten other classes and the class-0
words except 0x00E0. -/
def Obligations.UnknownWordsAreTheUnlistedOnes : Prop :=
  ∀ w : Word, decodeWord w = .unknown ↔
    (w.extractLsb' 12 4 = 0x0#4 ∧ w ≠ 0x00E0#16) ∨
    w.extractLsb' 12 4 ∈ [0x2#4, 0x3#4, 0x4#4, 0x5#4, 0x8#4, 0x9#4, 0xB#4, 0xC#4, 0xE#4, 0xF#4]

/-! ## Reset -/

/-- 10_state R48 (its register values are the spec's decisions D3 to D8 and D13; log entry 2): every state element after a
reset, under both values of REGS_AT_RESET; `State.reset` is the reset with the default parameters. -/
def Obligations.ResetLeavesTheResetTable : Prop :=
  (∀ (cfg : Config) (freeV : Vector Byte 16) (freeI : Word),
    let s := State.resetWith cfg freeV freeI
    (∀ a, s.mem.byteAt a = 0#8) ∧ (∀ p, s.fb.get p = false) ∧
    (cfg.regsAtReset = .zero → (∀ x : RegIdx, s.v[x] = 0#8) ∧ s.i = 0#16) ∧
    (cfg.regsAtReset = .arbitrary → s.v = freeV ∧ s.i = freeI) ∧
    s.pc = 0x200#16 ∧ s.sp = 0#8 ∧ (∀ k : Fin 16, s.stack[k] = 0#16) ∧ s.dt = 0#8 ∧ s.st = 0#8 ∧
    s.draw = false ∧ s.running = false ∧ causeCode s.faultCause = 0#3 ∧ s.faultPc = 0#16) ∧
  ∀ (freeV : Vector Byte 16) (freeI : Word), State.reset = State.resetWith defaultConfig freeV freeI

/-- The invariants of Safety.lean hold after every reset (10_state R27, R28, R30, R31, R48), at `State.reset` among them. -/
def Obligations.InvariantsHoldAfterReset : Prop :=
  (∀ (cfg : Config) (freeV : Vector Byte 16) (freeI : Word),
    (State.resetWith cfg freeV freeI).Inv ∧ (State.resetWith cfg freeV freeI).StubsAtReset ∧
    (cfg.regsAtReset = .zero → (State.resetWith cfg freeV freeI).AddressBounded)) ∧
  State.reset.Inv ∧ State.reset.StubsAtReset ∧ State.reset.AddressBounded

/-! ## The instruction cycle -/

/-- 40_cycle R96: the step of a running core fetches the two bytes at `pc`, high byte first and at any alignment, advances
`pc` by 2 and runs the instruction they decode to. The parameters touch no instruction but CLS (00_scope R9). -/
def Obligations.StepRunsTheDecodedInstruction : Prop :=
  ∀ (s : State) (i : Instr), s.running = true → s.pc.toNat + 1 ≤ 0xFFF →
    decodeWord (s.mem.byteAt s.pc.toNat ++ s.mem.byteAt (s.pc.toNat + 1)) = .op i →
    step s = exec i { s with pc := s.pc + 2#16 } ∧
    (∀ cfg, stepWith cfg s = execWith cfg i { s with pc := s.pc + 2#16 }) ∧
    (∀ t : State, execWith defaultConfig i t = exec i t) ∧
    ∀ (cfg : Config) (j : Instr) (t : State), j ≠ .cls → execWith cfg j t = exec j t

/-- 40_cycle R97 (the spec's decision D19) and 60_exceptions R166: a fetch that would read past 0xFFF records cause 1 and the
fetch address, halts the core and changes nothing else, `pc` included. -/
def Obligations.FetchPastMemoryFaults : Prop :=
  ∀ (cfg : Config) (s : State), s.running = true → s.pc.toNat + 1 > 0xFFF →
    stepWith cfg s = .next { s with faultCause := .fetchOutOfBounds, faultPc := s.pc, running := false } ∧
    step s = .next { s with faultCause := .fetchOutOfBounds, faultPc := s.pc, running := false } ∧
    causeCode .fetchOutOfBounds = 1#3

/-- 60_exceptions R162: of a core with no fault recorded, the step raises FetchOutOfBounds exactly when the fetch would read
past 0xFFF; nothing but `pc` decides it. -/
def Obligations.FetchFaultDependsOnlyOnPc : Prop :=
  ∀ (cfg : Config) (s : State), s.running = true → s.Inv →
    ∃ t, stepWith cfg s = .next t ∧ (t.faultCause = .fetchOutOfBounds ↔ s.pc.toNat + 1 > 0xFFF)

/-- 40_cycle R103: with STRICT_DECODE = 0, the default, an unknown word advances `pc` by 2 and changes nothing else. -/
def Obligations.UnknownWordIsNoOpWhenPermissive : Prop :=
  ∀ s : State, s.CanFetch → decodeWord s.wordAtPc = .unknown →
    (∀ cfg : Config, cfg.strictDecode = false → stepWith cfg s = .next { s with pc := s.pc + 2#16 }) ∧
    step s = .next { s with pc := s.pc + 2#16 }

/-- 40_cycle R104 (the spec's decisions D9 and D33): with STRICT_DECODE = 1 an unknown word records cause 4 and its address and
halts; `pc` keeps the fetch advance and nothing else changes. -/
def Obligations.UnknownWordFaultsWhenStrict : Prop :=
  ∀ (cfg : Config) (s : State), cfg.strictDecode = true → s.CanFetch → decodeWord s.wordAtPc = .unknown →
    stepWith cfg s = .next
      { s with pc := s.pc + 2#16, faultCause := .unknownOpcode, faultPc := s.pc, running := false } ∧
    causeCode .unknownOpcode = 4#3

/-- 40_cycle R99 with 60_exceptions R165: STRICT_DECODE decides nothing for a word that is an instruction. -/
def Obligations.StrictnessAffectsOnlyUnknownWords : Prop :=
  ∀ (cfg : Config) (strict : Bool) (s : State) (i : Instr), decodeWord s.wordAtPc = .op i →
    stepWith { cfg with strictDecode := strict } s = stepWith cfg s

/-- 40_cycle R110 (the spec's decision D28): a halted core's steps change nothing, however many are made. -/
def Obligations.HaltedCoreDoesNothing : Prop :=
  ∀ (cfg : Config) (s : State), s.running = false →
    step s = .next s ∧ stepWith cfg s = .next s ∧ ∀ k, stepsWith cfg k s = .next s

/-- Every fault of the spec is a next state (log entry 3): no step of the model stops, with any parameters, in any state. -/
def Obligations.EveryStepAnswersANextState : Prop :=
  ∀ (cfg : Config) (s : State), (∃ t, stepWith cfg s = .next t) ∧ (∃ t, step s = .next t) ∧
    ∀ i, ∃ t, exec i s = .next t

/-! ## Control transfer and register operations -/

/-- 41_control_flow R115: a word with match 0x1000 and mask 0xF000 sets `pc` to its zero-extended low 12 bits and changes
nothing else; the target is not checked, and one at or past 0xFFF makes the next fetch fault. -/
def Obligations.JumpSetsPcToItsOperand : Prop :=
  (∀ (nnn : Addr12) (s : State), exec (.jp nnn) s = .next { s with pc := nnn.setWidth 16 }) ∧
  (∀ (cfg : Config) (s : State), s.CanFetch → s.wordAtPc &&& 0xF000#16 = 0x1000#16 →
    stepWith cfg s = .next { s with pc := (s.wordAtPc.extractLsb' 0 12).setWidth 16 }) ∧
  ∀ (cfg : Config) (nnn : Addr12) (s : State), s.running = true → nnn.toNat ≥ 0xFFF →
    stepWith cfg { s with pc := nnn.setWidth 16 } = .next
      { s with pc := nnn.setWidth 16, faultCause := .fetchOutOfBounds, faultPc := nnn.setWidth 16, running := false }

/-- 41_control_flow R118: the word `0x1000 | A` at address `A` leaves all state unchanged, at every later step too. -/
def Obligations.JumpToItselfRunsForever : Prop :=
  ∀ (cfg : Config) (s : State), s.CanFetch → s.wordAtPc = 0x1000#16 ||| s.pc →
    ∀ k, stepsWith cfg k s = .next s

/-- 42_register_ops R120: a word with match 0x6000 and mask 0xF000 writes its low byte to the register of bits 11..8,
`V[15]` like any other, advances `pc` by 2 and changes nothing else. -/
def Obligations.SetRegisterWritesItsImmediate : Prop :=
  (∀ (x : RegIdx) (nn : Byte) (s : State), exec (.ldVx x nn) s = .next { s with v := s.v.set x nn }) ∧
  ∀ (cfg : Config) (s : State) (x : RegIdx), s.CanFetch → s.wordAtPc &&& 0xF000#16 = 0x6000#16 →
    (s.wordAtPc.extractLsb' 8 4).toNat = x.val →
    stepWith cfg s = .next { s with pc := s.pc + 2#16, v := s.v.set x (s.wordAtPc.extractLsb' 0 8) }

/-- 42_register_ops R121: a word with match 0x7000 and mask 0xF000 adds its low byte to the register of bits 11..8 modulo
256, writes no flag (`V[15]` only as the destination), advances `pc` by 2 and changes nothing else. -/
def Obligations.AddImmediateAddsModulo256 : Prop :=
  (∀ (x : RegIdx) (nn : Byte) (s : State),
    exec (.addVx x nn) s = .next { s with v := s.v.set x (BitVec.ofNat 8 ((s.v[x].toNat + nn.toNat) % 256)) }) ∧
  ∀ (cfg : Config) (s : State) (x : RegIdx), s.CanFetch → s.wordAtPc &&& 0xF000#16 = 0x7000#16 →
    (s.wordAtPc.extractLsb' 8 4).toNat = x.val →
    stepWith cfg s = .next
      { s with
        pc := s.pc + 2#16
        v := s.v.set x (BitVec.ofNat 8 ((s.v[x].toNat + (s.wordAtPc.extractLsb' 0 8).toNat) % 256)) }

/-- 42_register_ops R123: a word with match 0xA000 and mask 0xF000 sets `I` to its zero-extended low 12 bits (so bits 15..12
are 0), unchecked, advances `pc` by 2 and changes nothing else. -/
def Obligations.SetAddressRegisterLoadsItsOperand : Prop :=
  (∀ (nnn : Addr12) (s : State), exec (.ldI nnn) s = .next { s with i := nnn.setWidth 16 }) ∧
  (∀ (cfg : Config) (s : State), s.CanFetch → s.wordAtPc &&& 0xF000#16 = 0xA000#16 →
    stepWith cfg s = .next { s with pc := s.pc + 2#16, i := (s.wordAtPc.extractLsb' 0 12).setWidth 16 }) ∧
  ∀ nnn : Addr12, (nnn.setWidth 16).extractLsb' 12 4 = 0#4

/-! ## Display -/

/-- 43_display R135 (CLS_SETS_DRAW = 1 is the spec's decision D11; log entry 1): the word 0x00E0 turns every cell off, sets
the draw flag when CLS_SETS_DRAW = 1 and else keeps it, and changes nothing else; `exec` has the default, 1. -/
def Obligations.ClearScreenTurnsEveryCellOff : Prop :=
  ∃ off : Framebuffer, (∀ p, off.get p = false) ∧
    (∀ s : State, exec .cls s = .next { s with fb := off, draw := true }) ∧
    (∀ (cfg : Config) (s : State),
      execWith cfg .cls s = .next { s with fb := off, draw := if cfg.clsSetsDraw = true then true else s.draw }) ∧
    ∀ (cfg : Config) (s : State), s.CanFetch → s.wordAtPc = 0x00E0#16 →
      stepWith cfg s = .next
        { s with pc := s.pc + 2#16, fb := off, draw := if cfg.clsSetsDraw = true then true else s.draw }

/-- 43_display R136, R137, R139, R140 and R141: a sprite all of whose accesses are in bounds is drawn (`SpriteDrawn`: each cell
under a set bit is complemented and every other cell kept; the flag is 1 exactly when a set bit fell on a cell that was on,
else 0). `V[15]` is the flag, the draw flag is set, and nothing else changes; the step, with any parameters, also advances
`pc`. The coordinates are those held before the instruction, `V[15]` included (the spec's decision D14). -/
def Obligations.DrawXorsTheSpriteAndReportsCollision : Prop :=
  (∀ (x y : RegIdx) (n : Nat) (s : State), SpriteInBounds x y n s →
    ∃ (f : Framebuffer) (flag : Byte), SpriteDrawn x y n s f flag ∧
      exec (.drw x y n) s = .next { s with v := s.v.set 15 flag, fb := f, draw := true }) ∧
  ∀ (cfg : Config) (x y : RegIdx) (n : Nat) (s : State), s.AtDrawWord x y n → SpriteInBounds x y n s →
    ∃ (f : Framebuffer) (flag : Byte), SpriteDrawn x y n s f flag ∧
      stepWith cfg s = .next { s with pc := s.pc + 2#16, v := s.v.set 15 flag, fb := f, draw := true }

/-- 43_display R141: Draw sprite sets the draw flag whenever it completes, whether or not any cell changed, a sprite of no
rows included, and with any parameters. -/
def Obligations.DrawSetsTheDrawFlagWhenItCompletes : Prop :=
  (∀ (x y : RegIdx) (n : Nat) (s : State), SpriteInBounds x y n s →
    ∃ t, exec (.drw x y n) s = .next t ∧ t.draw = true) ∧
  (∀ (cfg : Config) (x y : RegIdx) (n : Nat) (s : State), s.AtDrawWord x y n → SpriteInBounds x y n s →
    ∃ t, stepWith cfg s = .next t ∧ t.draw = true) ∧
  (∀ (x y : RegIdx) (s : State), ∃ t, exec (.drw x y 0) s = .next t ∧ t.draw = true) ∧
  ∀ (cfg : Config) (x y : RegIdx) (s : State), s.AtDrawWord x y 0 → ∃ t, stepWith cfg s = .next t ∧ t.draw = true

/-- 43_display R138, 60_exceptions R163, R164, R166 (the spec's decisions D12, D15, D16, D27, D30): the first access out of
bounds, in the order row byte, row bits, next row, is the fault taken, at the instruction's address (for `exec` that is
`pc - 2`, log entry 4; for the step it is `pc` before the advance); nothing is drawn, with any parameters. A sprite is in
bounds or has such a first access. -/
def Obligations.DrawFaultsAtTheFirstAccessOutOfBounds : Prop :=
  ∀ (x y : RegIdx) (n : Nat) (s : State),
    (∀ r, FirstFaultIsMemory x y n s r →
      exec (.drw x y n) s = .next
        { s with faultCause := .spriteMemOutOfBounds, faultPc := s.pc - 2#16, running := false } ∧
      (s.AtDrawWord x y n → ∀ cfg, stepWith cfg s = .next
        { s with pc := s.pc + 2#16, faultCause := .spriteMemOutOfBounds, faultPc := s.pc, running := false })) ∧
    (∀ r, FirstFaultIsPixel x y n s r →
      exec (.drw x y n) s = .next
        { s with faultCause := .spriteFbOutOfBounds, faultPc := s.pc - 2#16, running := false } ∧
      (s.AtDrawWord x y n → ∀ cfg, stepWith cfg s = .next
        { s with pc := s.pc + 2#16, faultCause := .spriteFbOutOfBounds, faultPc := s.pc, running := false })) ∧
    (SpriteInBounds x y n s ∨ ∃ r, FirstFaultIsMemory x y n s r ∨ FirstFaultIsPixel x y n s r)

/-- 43_display R142: a sprite without a set bit whose rows are all in memory, one of no rows among them, draws nothing at any
coordinates: `V[15]` becomes 0, the draw flag is set and nothing else changes. -/
def Obligations.BlankSpriteDrawsNothingAnywhere : Prop :=
  ∀ (x y : RegIdx) (n : Nat) (s : State),
    (∀ r, r < n → s.i.toNat + r ≤ 0xFFF ∧ s.mem.byteAt (s.i.toNat + r) = 0#8) →
    exec (.drw x y n) s = .next { s with v := s.v.set 15 0#8, draw := true }

/-- 43_display R142, R139: drawing the same sprite twice at the same place (the first draw leaves both coordinate registers as
they were, `V[15]` as a coordinate included) restores the framebuffer; the second draw reports a collision exactly when some
cell under a set bit was off before the first. R142 says it does whenever the sprite has a set bit, which R139 gives only
for such a background (log entry 12). -/
def Obligations.DrawingTwiceRestoresTheFramebuffer : Prop :=
  ∀ (x y : RegIdx) (n : Nat) (s t : State), SpriteInBounds x y n s → exec (.drw x y n) s = .next t →
    t.readV x = s.readV x → t.readV y = s.readV y →
    ∃ u, exec (.drw x y n) t = .next u ∧ u.fb = s.fb ∧
      ((∃ p, UnderSprite x y n s p ∧ s.fb.get p = false) → u.readV 15 = 1#8) ∧
      ((∀ p, UnderSprite x y n s p → s.fb.get p = true) → u.readV 15 = 0#8)

/-- 43_display R142 on a blank background, the source's collision property (95_test_vectors E5): where every cell under the
sprite is off before, the first draw reports no collision and the second reports one exactly when the sprite has a set bit. -/
def Obligations.SecondDrawOnBlankBackgroundCollides : Prop :=
  ∀ (x y : RegIdx) (n : Nat) (s t : State), SpriteInBounds x y n s → exec (.drw x y n) s = .next t →
    (∀ p, UnderSprite x y n s p → s.fb.get p = false) →
    t.readV x = s.readV x → t.readV y = s.readV y →
    t.readV 15 = 0#8 ∧
    ∃ u, exec (.drw x y n) t = .next u ∧
      (SpriteHasSetBit n s → u.readV 15 = 1#8) ∧ (¬ SpriteHasSetBit n s → u.readV 15 = 0#8)

/-- Against the words of 43_display R142 (log entry 12): under R136 and R139 a sprite with a set bit, drawn twice at one place,
can report a collision on the first draw and none on the second, its cells having been on before the first. -/
def Obligations.SecondDrawNeedNotCollide : Prop :=
  ∃ (x y : RegIdx) (n : Nat) (s t u : State),
    SpriteInBounds x y n s ∧ SpriteHasSetBit n s ∧ (∀ p, UnderSprite x y n s p → s.fb.get p = true) ∧
    exec (.drw x y n) s = .next t ∧ t.readV 15 = 1#8 ∧
    t.readV x = s.readV x ∧ t.readV y = s.readV y ∧ exec (.drw x y n) t = .next u ∧ u.readV 15 = 0#8

/-- 10_state R37: the framebuffer as a sequence of 2048 elements, cell `FB[r][c]` element `r * 64 + c`. -/
def Obligations.FramebufferIsRowMajor : Prop :=
  ∀ fb : Framebuffer, fb.rowMajor.length = 2048 ∧
    ∀ (r : Fin 32) (c : Fin 64), fb.rowMajor[r.val * 64 + c.val]? = some (fb.get (r, c))

/-! ## Frames -/

/-- 10_state R22, R24: an instruction that gives a next state leaves every general register but those it writes: the
destination of LD Vx and ADD, `V[15]` for DRW. -/
def Obligations.OnlyDestinationRegistersChange : Prop :=
  ∀ (i : Instr) (k : RegIdx) (s t : State), exec i s = .next t → ¬ writesRegister i k → t.readV k = s.readV k

/-- 20_memory R52, R63: no step changes a byte of memory; neither does any instruction. -/
def Obligations.NoInstructionWritesMemory : Prop :=
  (∀ (cfg : Config) (s t : State), stepWith cfg s = .next t → ∀ a, t.mem.byteAt a = s.mem.byteAt a) ∧
  ∀ (i : Instr) (s t : State), exec i s = .next t → ∀ a, t.mem.byteAt a = s.mem.byteAt a

/-- 10_state R30, R31: the steps neither read nor write the stack, `sp` and the timers: with any other values there, the step
does the same and carries those values over. -/
def Obligations.StepsNeitherReadNorWriteStackOrTimers : Prop :=
  ∀ (cfg : Config) (s t : State) (sp : Byte) (stack : Vector Word 16) (dt st : Byte),
    stepWith cfg s = .next t →
    t.sp = s.sp ∧ t.stack = s.stack ∧ t.dt = s.dt ∧ t.st = s.st ∧
    stepWith cfg { s with sp := sp, stack := stack, dt := dt, st := st } =
      .next { t with sp := sp, stack := stack, dt := dt, st := st }

/-- 10_state R28: only LD I writes `I`; every other instruction leaves it. -/
def Obligations.OnlySetAddressRegisterWritesI : Prop :=
  ∀ (i : Instr) (s t : State), exec i s = .next t → (∀ nnn, i ≠ .ldI nnn) → t.i = s.i

/-- 10_state R35, R36: a step that runs neither CLS nor DRW leaves the framebuffer and the draw flag. -/
def Obligations.OnlyDisplayWordsTouchTheDisplay : Prop :=
  ∀ (cfg : Config) (s t : State), stepWith cfg s = .next t →
    decodeWord s.wordAtPc ≠ .op .cls → (∀ x y n, decodeWord s.wordAtPc ≠ .op (.drw x y n)) →
    t.fb = s.fb ∧ t.draw = s.draw

/-- 10_state R26: an execute phase leaves the `pc` it sees, but for JP, which sets its operand; a step in bounds of a running
core leaves the operand of a JP, else `A + 2`. -/
def Obligations.OnlyJumpWritesPcInExecute : Prop :=
  (∀ (i : Instr) (s t : State), exec i s = .next t → t.pc = pcAfter i s.pc) ∧
  ∀ (cfg : Config) (s t : State), s.CanFetch → stepWith cfg s = .next t →
    (∀ nnn, decodeWord s.wordAtPc = .op (.jp nnn) → t.pc = nnn.setWidth 16) ∧
    ((∀ nnn, decodeWord s.wordAtPc ≠ .op (.jp nnn)) → t.pc = s.pc + 2#16)

/-- 40_cycle R101: CLS, JP, LD Vx, ADD and LD I never fault, and DRW does not when its accesses are in bounds: each answers a
next state with `running` and the fault record as they were. -/
def Obligations.OnlyDrawOutOfBoundsFaults : Prop :=
  ∀ (i : Instr) (s : State), (∀ x y n, i = .drw x y n → SpriteInBounds x y n s) →
    ∃ t, exec i s = .next t ∧ t.running = s.running ∧ t.faultCause = s.faultCause ∧ t.faultPc = s.faultPc

/-! ## Faults -/

/-- 60_exceptions R166, R167 (the spec's decisions D12, D13, D33): a step that halts a running core changes only the fault
record, `running` and `pc`; the cause is one of 1 to 4, the address is the instruction's, and `pc` stays for a fetch fault
and keeps the fetch advance for the others. -/
def Obligations.FaultingStepsArePrecise : Prop :=
  ∀ (cfg : Config) (s t : State), s.running = true → stepWith cfg s = .next t → t.running = false →
    t = { s with
          running := false
          faultCause := t.faultCause
          faultPc := s.pc
          pc := if t.faultCause = .fetchOutOfBounds then s.pc else s.pc + 2#16 } ∧
    t.faultCause ∈ [FaultCause.fetchOutOfBounds, .spriteMemOutOfBounds, .spriteFbOutOfBounds, .unknownOpcode]

/-- 60_exceptions R161 (the numbers are the spec's decision D13): the causes have the numbers of the table, each its own, and 6
and 7 are never shown. -/
def Obligations.FaultCausesHaveTheirNumbers : Prop :=
  causeCode .none = 0#3 ∧ causeCode .fetchOutOfBounds = 1#3 ∧ causeCode .spriteMemOutOfBounds = 2#3 ∧
  causeCode .spriteFbOutOfBounds = 3#3 ∧ causeCode .unknownOpcode = 4#3 ∧ causeCode .loadFailure = 5#3 ∧
  (∀ a b, causeCode a = causeCode b → a = b) ∧
  ∀ s : State, faultCauseOut s ≠ 6#3 ∧ faultCauseOut s ≠ 7#3

/-! ## Invariants -/

/-- 10_state R27, R34, 60_exceptions R166, R169: every step keeps the invariant, from every state that meets it: memory in
canonical form, `pc <= 0x1000`, no fault recorded while running, no address without a fault. -/
def Obligations.EveryStepKeepsTheInvariant : Prop :=
  (∀ s t : State, s.Inv → step s = .next t → t.Inv) ∧
  ∀ (cfg : Config) (s t : State), s.Inv → stepWith cfg s = .next t → t.Inv

/-- 10_state R28: every step keeps `I <= 0xFFF`. -/
def Obligations.EveryStepKeepsTheAddressBound : Prop :=
  ∀ (cfg : Config) (s t : State), s.AddressBounded → stepWith cfg s = .next t → t.AddressBounded

/-- 10_state R28, R30, R32, R34, 70_reset_and_hazards R194: what holds of every block a host can bring about, whatever it
loads and does between steps. While a load is still possible (log entry 8) the core has not run and memory is empty. -/
def Obligations.EveryReachableBlockKeepsTheInvariants : Prop :=
  ∀ (cfg : Config) (b : Block), Reachable cfg b →
    b.core.Inv ∧ b.core.StubsAtReset ∧
    (cfg.regsAtReset = .zero → b.core.AddressBounded) ∧
    (b.loadOpen = true → b.core.running = false ∧ b.core.faultCause = .none ∧ ∀ a, b.core.mem.byteAt a = 0#8)

/-- 10_state R27, R28, R30, R34, 70_reset_and_hazards R194: every host event that is part of the interface (log entry 8) keeps
the block's invariant, from every block that meets it, and a reset establishes it. -/
def Obligations.EveryHostEventKeepsTheBlockInvariant : Prop :=
  (∀ (cfg : Config) (b b' : Block) (e : HostEvent), b.Inv cfg → blockEvent cfg b e = some b' → b'.Inv cfg) ∧
  ∀ (cfg : Config) (b : Block) (freeV : Vector Byte 16) (freeI : Word),
    ∃ b', blockEvent cfg b (.reset freeV freeI) = some b' ∧ b'.Inv cfg

/-! ## The host's side -/

/-- 70_reset_and_hazards R191: after a load that fits, byte `k` of the program reads back at 0x200 + k; the loader writes no
other address and no register (what it leaves in `running` is `SuccessfulLoadStartsTheCore`'s). -/
def Obligations.LoadedProgramReadsBack : Prop :=
  ∀ (bytes : List Byte) (s : State), s.mem.wf = true → bytes.length ≤ 0xE00 →
    (∀ (k : Nat) (h : k < bytes.length), (load (some bytes) s).mem.byteAt (0x200 + k) = bytes[k]) ∧
    (∀ a, a < 0x200 ∨ 0x200 + bytes.length ≤ a → (load (some bytes) s).mem.byteAt a = s.mem.byteAt a) ∧
    load (some bytes) s =
      { s with mem := (load (some bytes) s).mem, running := (load (some bytes) s).running } ∧
    (load (some bytes) s).mem.wf = true

/-- 70_reset_and_hazards R192 (the spec's decisions D8 and D32): a load of at most 0xE00 bytes sets `running` and writes no
fault record, a load of no bytes among them, which changes nothing else. -/
def Obligations.SuccessfulLoadStartsTheCore : Prop :=
  (∀ (bytes : List Byte) (s : State), bytes.length ≤ 0xE00 →
    (load (some bytes) s).running = true ∧ (load (some bytes) s).faultCause = s.faultCause ∧
    (load (some bytes) s).faultPc = s.faultPc) ∧
  ∀ s : State, load (some []) s = { s with running := true }

/-- 70_reset_and_hazards R193 (the spec's decision D20): a file that cannot be opened or is longer than 0xE00 bytes gives
LoadFailure, cause 5, and nothing else; after a reset the core then never steps. -/
def Obligations.FailedLoadRecordsAndNeverSteps : Prop :=
  ∀ (file : ProgramFile) (s : State), (∀ bytes, file = some bytes → bytes.length > 0xE00) →
    load file s = { s with faultCause := .loadFailure } ∧ causeCode .loadFailure = 5#3 ∧
    ∀ (cfg : Config) (freeV : Vector Byte 16) (freeI : Word) (k : Nat),
      stepsWith cfg k (load file (State.resetWith cfg freeV freeI)) =
        .next { State.resetWith cfg freeV freeI with faultCause := .loadFailure }

/-- 40_cycle R111 (the spec's decision D34) and 10_state R45: `quit` clears `running` and `render_ack` clears `draw`, each
nothing else; `fb_view` is the framebuffer, and a render consumes it exactly when `draw = 1`. -/
def Obligations.QuitAndRenderAckClearOneFlag : Prop :=
  ∀ s : State, quit s = { s with running := false } ∧ renderAck s = { s with draw := false } ∧
    fbView s = s.fb ∧ (s.draw = true → renderInput s = some s.fb) ∧ (s.draw = false → renderInput s = none)

/-- 40_cycle R109: one iteration of a running core is a step, then the poll, then a render with its acknowledge if `draw` is
set. After a halt the acknowledge is the host's choice (70_reset_and_hazards R200; log entry 9). -/
def Obligations.RunLoopStepsPollsThenRenders : Prop :=
  ∀ (cfg : Config) (turn : HostTurn) (s t : State), s.running = true → stepWith cfg s = .next t →
    ∃ u, runLoopTurn cfg turn s = .next u ∧
      u = { t with running := u.running, draw := u.draw } ∧
      (u.running = true ↔ t.running = true ∧ turn.quitSeen = false) ∧
      (u.running = true → u.draw = false) ∧
      (u.running = false → turn.renderAfterHalt = false → u.draw = t.draw) ∧
      (u.running = false → turn.renderAfterHalt = true → u.draw = false)

/-- 10_state R34, 40_cycle R110: nothing sets `running` but a successful load after a reset, before the first step. -/
def Obligations.OnlyALoadAfterResetSetsRunning : Prop :=
  ∀ (cfg : Config) (b b' : Block) (e : HostEvent), blockEvent cfg b e = some b' →
    b.core.running = false → b'.core.running = true →
    b.loadOpen = true ∧ ∃ bytes, e = .load (some bytes) ∧ bytes.length ≤ 0xE00

/-- 60_exceptions R169 (the spec's decision D26): in every block a host can bring about, a recorded fault survives every event
but a reset, and the core stays halted. -/
def Obligations.FaultRecordSurvivesUntilReset : Prop :=
  ∀ (cfg : Config) (b b' : Block) (e : HostEvent), Reachable cfg b → blockEvent cfg b e = some b' →
    b.core.faultCause ≠ .none → (∀ freeV freeI, e ≠ .reset freeV freeI) →
    b'.core.faultCause = b.core.faultCause ∧ b'.core.faultPc = b.core.faultPc ∧ b'.core.running = false

/-- 60_exceptions R178 (the spec's decision D29): `debug_read` shows the registers, the stack and the timers, and any byte of
memory, for the addresses 0x000 to 0xFFF. -/
def Obligations.DebugReadShowsRegistersAndMemory : Prop :=
  ∀ s : State,
    debugReadRegisters s = { v := s.v, i := s.i, pc := s.pc, sp := s.sp, stack := s.stack, dt := s.dt, st := s.st } ∧
    (∀ a, a ≤ 0xFFF → debugReadByte s a = some (s.mem.byteAt a)) ∧ ∀ a, a > 0xFFF → debugReadByte s a = none

/-- The host's placement of one instruction (log entry 6): the very next step runs it, from any state with memory in canonical
form. -/
def Obligations.PlacedInstructionRunsNext : Prop :=
  ∀ (i : Instr) (s : State), wellFormed i = true → s.mem.wf = true →
    step (s.withFetchWord 16 (encode i).toNat) =
      exec i { s.withFetchWord 16 (encode i).toNat with pc := (s.withFetchWord 16 (encode i).toNat).pc + 2#16 }
end

