-- ==== Sys2Proof/Laws/Decode.lean ====
section
/-! SUPPORT. The fields of words put together from fields, the bytes of a word, and the mask test as a test of the class. -/

namespace Sys2Proof

/-! ## Bytes of a word (20_memory R58) -/

@[simp] theorem wordOfBytes_bytes (w : Word) : wordOfBytes (highByte w) (lowByte w) = w := by
  apply BitVec.eq_of_getLsbD_eq
  intro k hk
  simp only [wordOfBytes, highByte, lowByte, BitVec.getLsbD_append, BitVec.getLsbD_extractLsb']
  by_cases h : k < 8
  · simp [h]
  · simp [h, show k - 8 < 8 by omega, show 8 + (k - 8) = k by omega]

@[simp] theorem highByte_wordOfBytes (hi lo : Byte) : highByte (wordOfBytes hi lo) = hi := by
  apply BitVec.eq_of_getLsbD_eq
  intro k hk
  simp only [wordOfBytes, highByte, BitVec.getLsbD_append, BitVec.getLsbD_extractLsb']
  simp [hk]

@[simp] theorem lowByte_wordOfBytes (hi lo : Byte) : lowByte (wordOfBytes hi lo) = lo := by
  apply BitVec.eq_of_getLsbD_eq
  intro k hk
  simp only [wordOfBytes, lowByte, BitVec.getLsbD_append, BitVec.getLsbD_extractLsb']
  simp [hk]

/-! ## Fields of a class word with an address -/

@[simp] theorem fieldCls_class (c : BitVec 4) (nnn : Addr12) : fieldCls (c ++ nnn : BitVec (4 + 12)) = c := by
  apply BitVec.eq_of_getLsbD_eq
  intro k hk
  simp only [fieldCls, BitVec.getLsbD_append, BitVec.getLsbD_extractLsb']
  simp [hk]

@[simp] theorem fieldNnn_class (c : BitVec 4) (nnn : Addr12) : fieldNnn (c ++ nnn : BitVec (4 + 12)) = nnn := by
  apply BitVec.eq_of_getLsbD_eq
  intro k hk
  simp only [fieldNnn, BitVec.getLsbD_append, BitVec.getLsbD_extractLsb']
  simp [hk]

/-! ## Fields of a class word with a register and an immediate -/

@[simp] theorem fieldCls_classXNn (c x : BitVec 4) (nn : Byte) : fieldCls (c ++ x ++ nn : BitVec (4 + 4 + 8)) = c := by
  apply BitVec.eq_of_getLsbD_eq
  intro k hk
  simp only [fieldCls, BitVec.getLsbD_append, BitVec.getLsbD_extractLsb']
  simp [hk, show ¬ 12 + k < 8 by omega, show ¬ 12 + k - 8 < 4 by omega, show 12 + k - 8 - 4 = k by omega]

@[simp] theorem fieldX_classXNn (c x : BitVec 4) (nn : Byte) :
    (fieldX (c ++ x ++ nn : BitVec (4 + 4 + 8))).val = x.toNat := by
  have : (c ++ x ++ nn : BitVec (4 + 4 + 8)).extractLsb' 8 4 = x := by
    apply BitVec.eq_of_getLsbD_eq
    intro k hk
    simp only [BitVec.getLsbD_append, BitVec.getLsbD_extractLsb']
    simp [hk]
  exact congrArg BitVec.toNat this

@[simp] theorem fieldNn_classXNn (c x : BitVec 4) (nn : Byte) : fieldNn (c ++ x ++ nn : BitVec (4 + 4 + 8)) = nn := by
  apply BitVec.eq_of_getLsbD_eq
  intro k hk
  simp only [fieldNn, BitVec.getLsbD_append, BitVec.getLsbD_extractLsb']
  simp [hk]

/-! ## Fields of a class word with two registers and a height -/

@[simp] theorem fieldCls_classXYN (c x y n : BitVec 4) :
    fieldCls (c ++ x ++ y ++ n : BitVec (4 + 4 + 4 + 4)) = c := by
  apply BitVec.eq_of_getLsbD_eq
  intro k hk
  simp only [fieldCls, BitVec.getLsbD_append, BitVec.getLsbD_extractLsb']
  simp [hk, show ¬ 12 + k < 4 by omega, show ¬ 12 + k - 4 < 4 by omega, show ¬ 12 + k - 4 - 4 < 4 by omega, show 12 + k - 4 - 4 - 4 = k by omega]

@[simp] theorem fieldX_classXYN (c x y n : BitVec 4) :
    (fieldX (c ++ x ++ y ++ n : BitVec (4 + 4 + 4 + 4))).val = x.toNat := by
  have : (c ++ x ++ y ++ n : BitVec (4 + 4 + 4 + 4)).extractLsb' 8 4 = x := by
    apply BitVec.eq_of_getLsbD_eq
    intro k hk
    simp only [BitVec.getLsbD_append, BitVec.getLsbD_extractLsb']
    simp [hk, show ¬ 8 + k < 4 by omega, show ¬ 8 + k - 4 < 4 by omega, show 8 + k - 4 - 4 = k by omega]
  exact congrArg BitVec.toNat this

@[simp] theorem fieldY_classXYN (c x y n : BitVec 4) :
    (fieldY (c ++ x ++ y ++ n : BitVec (4 + 4 + 4 + 4))).val = y.toNat := by
  have : (c ++ x ++ y ++ n : BitVec (4 + 4 + 4 + 4)).extractLsb' 4 4 = y := by
    apply BitVec.eq_of_getLsbD_eq
    intro k hk
    simp only [BitVec.getLsbD_append, BitVec.getLsbD_extractLsb']
    simp [hk]
  exact congrArg BitVec.toNat this

@[simp] theorem fieldN_classXYN (c x y n : BitVec 4) :
    fieldN (c ++ x ++ y ++ n : BitVec (4 + 4 + 4 + 4)) = n.toNat := by
  have : (c ++ x ++ y ++ n : BitVec (4 + 4 + 4 + 4)).extractLsb' 0 4 = n := by
    apply BitVec.eq_of_getLsbD_eq
    intro k hk
    simp only [BitVec.getLsbD_append, BitVec.getLsbD_extractLsb']
    simp [hk]
  exact congrArg BitVec.toNat this

@[simp] theorem regBits_toNat (x : RegIdx) : (regBits x).toNat = x.val := by
  have := x.isLt
  simp [regBits]

/-! ## A word put together again from its fields (30_encoding R76) -/

@[simp] theorem regBits_fieldX (w : Word) : regBits (fieldX w) = w.extractLsb' 8 4 := by
  apply BitVec.eq_of_toNat_eq
  rw [regBits_toNat]
  rfl

@[simp] theorem regBits_fieldY (w : Word) : regBits (fieldY w) = w.extractLsb' 4 4 := by
  apply BitVec.eq_of_toNat_eq
  rw [regBits_toNat]
  rfl

@[simp] theorem ofNat_fieldN (w : Word) : BitVec.ofNat 4 (fieldN w) = w.extractLsb' 0 4 :=
  BitVec.eq_of_toNat_eq (by simp [fieldN])

theorem class_nnn_word (w : Word) : (fieldCls w ++ fieldNnn w : BitVec (4 + 12)) = w := by
  apply BitVec.eq_of_getLsbD_eq
  intro k hk
  simp only [fieldCls, fieldNnn, BitVec.getLsbD_append, BitVec.getLsbD_extractLsb']
  by_cases h : k < 12
  · simp [h]
  · simp [h, show k - 12 < 4 by omega, show 12 + (k - 12) = k by omega]

theorem class_x_nn_word (w : Word) : (fieldCls w ++ regBits (fieldX w) ++ fieldNn w : BitVec (4 + 4 + 8)) = w := by
  rw [regBits_fieldX]
  apply BitVec.eq_of_getLsbD_eq
  intro k hk
  simp only [fieldCls, fieldNn, BitVec.getLsbD_append, BitVec.getLsbD_extractLsb']
  by_cases h : k < 8
  · simp [h]
  · by_cases h2 : k - 8 < 4
    · simp [h, h2, show 8 + (k - 8) = k by omega]
    · simp [h, h2, show k - 8 - 4 < 4 by omega, show 12 + (k - 8 - 4) = k by omega]

theorem class_x_y_n_word (w : Word) :
    (fieldCls w ++ regBits (fieldX w) ++ regBits (fieldY w) ++ BitVec.ofNat 4 (fieldN w) : BitVec (4 + 4 + 4 + 4)) = w := by
  rw [regBits_fieldX, regBits_fieldY, ofNat_fieldN]
  apply BitVec.eq_of_getLsbD_eq
  intro k hk
  simp only [fieldCls, BitVec.getLsbD_append, BitVec.getLsbD_extractLsb']
  by_cases h : k < 4
  · simp [h]
  · by_cases h2 : k - 4 < 4
    · simp [h, h2, show 4 + (k - 4) = k by omega]
    · by_cases h3 : k - 4 - 4 < 4
      · simp [h, h2, h3, show 8 + (k - 4 - 4) = k by omega]
      · simp [h, h2, h3, show k - 4 - 4 - 4 < 4 by omega, show 12 + (k - 4 - 4 - 4) = k by omega]

/-! ## The mask 0xF000 and the class (30_encoding R81) -/

/-- A class row selects exactly the words of its class. -/
theorem classMask_eq_iff (w : Word) (c : BitVec 4) : w &&& 0xF000#16 = (c ++ 0#12 : BitVec (4 + 12)) ↔ fieldCls w = c := by
  have hbit : ∀ k, (0xF000#16).getLsbD k = (decide (12 ≤ k) && decide (k < 16)) := by
    intro k
    by_cases hk : k < 16
    · interval_cases k <;> rfl
    · simp [BitVec.getLsbD_of_ge _ _ (show 16 ≤ k by omega), hk]
  constructor
  · intro h
    apply BitVec.eq_of_getLsbD_eq
    intro k hk
    have hb := congrArg (fun v : BitVec 16 => v.getLsbD (12 + k)) h
    simp only [BitVec.getLsbD_and, hbit, BitVec.getLsbD_append] at hb
    simpa [fieldCls, hk, show 12 + k < 16 by omega] using hb
  · rintro rfl
    apply BitVec.eq_of_getLsbD_eq
    intro k hk
    simp only [BitVec.getLsbD_and, hbit, BitVec.getLsbD_append, fieldCls, BitVec.getLsbD_extractLsb']
    by_cases h : k < 12
    · simp [h, show ¬ 12 ≤ k by omega]
    · simp [h, show 12 ≤ k by omega, show k < 16 by omega, show k - 12 < 4 by omega, show 12 + (k - 12) = k by omega]

end Sys2Proof
end

