-- ==== Sys2Proof/Laws/Framebuffer.lean ====
section
/-! SUPPORT. The laws of the framebuffer: what a toggle and a list of toggles leave in each cell. -/

namespace Sys2Proof.Machine

@[simp] theorem Framebuffer.get_blank (p : Pixel) : Framebuffer.blank.get p = false := by
  simp [Framebuffer.get, Framebuffer.blank]

theorem Framebuffer.get_toggle_same (fb : Framebuffer) (p : Pixel) : (fb.toggle p).get p = !fb.get p := by
  simp [Framebuffer.get, Framebuffer.toggle]

theorem Framebuffer.get_toggle_other (fb : Framebuffer) (p q : Pixel) (h : q ≠ p) : (fb.toggle p).get q = fb.get q := by
  obtain ⟨r, c⟩ := p
  obtain ⟨r', c'⟩ := q
  by_cases hr : r = r'
  · subst hr
    have hc : c.val ≠ c'.val := fun e => h (by rw [Fin.ext e])
    simp [Framebuffer.get, Framebuffer.toggle, Vector.getElem_set_ne _ _ hc]
  · have hr' : r.val ≠ r'.val := fun e => hr (Fin.ext e)
    simp [Framebuffer.get, Framebuffer.toggle, Vector.getElem_set_ne _ _ hr']

/-- Two framebuffers with the same cells are equal. -/
theorem Framebuffer.ext_get {f g : Framebuffer} (h : ∀ p, f.get p = g.get p) : f = g := by
  obtain ⟨f⟩ := f
  obtain ⟨g⟩ := g
  congr 1
  refine Vector.ext fun r hr => Vector.ext fun c hc => ?_
  exact h (⟨r, hr⟩, ⟨c, hc⟩)

theorem pixel?_eq_some_iff {r c : Nat} {p : Pixel} : pixel? r c = some p ↔ p.1.val = r ∧ p.2.val = c := by
  unfold pixel?
  constructor
  · intro h
    split at h
    · cases h; exact ⟨rfl, rfl⟩
    · cases h
  · rintro ⟨rfl, rfl⟩
    simp [p.1.isLt, p.2.isLt]

theorem pixel?_eq_none_iff {r c : Nat} : pixel? r c = none ↔ c > 63 ∨ r > 31 := by
  unfold pixel?
  split
  · simp; omega
  · simp; omega

/-- What phase 2 of Draw sprite leaves in each cell, when no cell stands twice in the list: listed cells toggled, the
others kept. -/
theorem toggleAll_get {ps : List Pixel} (hd : ps.Nodup) (fb : Framebuffer) (q : Pixel) :
    (toggleAll fb ps).1.get q = (fb.get q ^^ decide (q ∈ ps)) := by
  induction ps generalizing fb with
  | nil => simp [toggleAll]
  | cons p ps ih =>
    have hp := List.nodup_cons.mp hd
    rw [toggleAll, ih hp.2]
    by_cases hq : q = p
    · subst hq
      simp [Framebuffer.get_toggle_same, hp.1]
    · simp [Framebuffer.get_toggle_other fb p q hq, hq]

/-- The collision of phase 2: some listed cell was on before the instruction, when no cell stands twice in the list. -/
theorem toggleAll_hit {ps : List Pixel} (hd : ps.Nodup) (fb : Framebuffer) :
    (toggleAll fb ps).2 = true ↔ ∃ p, p ∈ ps ∧ fb.get p = true := by
  induction ps generalizing fb with
  | nil => simp [toggleAll]
  | cons p ps ih =>
    have hp := List.nodup_cons.mp hd
    have hother : ∀ q, q ∈ ps → (fb.toggle p).get q = fb.get q := fun q hq =>
      Framebuffer.get_toggle_other fb p q (fun e => hp.1 (e ▸ hq))
    rw [toggleAll, Bool.or_eq_true, ih hp.2]
    constructor
    · rintro (h | ⟨q, hq, hon⟩)
      · exact ⟨p, List.mem_cons_self .., h⟩
      · exact ⟨q, List.mem_cons_of_mem _ hq, by rwa [hother q hq] at hon⟩
    · rintro ⟨q, hq, hon⟩
      rcases List.mem_cons.mp hq with rfl | hq
      · exact .inl hon
      · exact .inr ⟨q, hq, by rwa [hother q hq]⟩

end Sys2Proof.Machine
end

