-- ==== Sys2Proof/Laws/Memory.lean ====
section
/-! SUPPORT. The laws of memory: read after write, writes elsewhere, and the canonical form kept by every operation. -/

namespace Sys2Proof.Machine

/-! ## The canonical form -/

@[simp] theorem cellsWf_nil (lo : Nat) : cellsWf lo [] = true := rfl

theorem cellsWf_cons (lo k : Nat) (b : Byte) (rest : List Host.Cell) :
    cellsWf lo ((k, b) :: rest) = true ↔ lo ≤ k ∧ k < 4096 ∧ b ≠ 0#8 ∧ cellsWf (k + 1) rest = true := by
  simp only [cellsWf, Bool.and_eq_true, decide_eq_true_eq, and_assoc]

theorem cellsWf_mono {lo hi : Nat} (h : hi ≤ lo) {cs : List Host.Cell} (hw : cellsWf lo cs = true) :
    cellsWf hi cs = true := by
  cases cs with
  | nil => rfl
  | cons kb rest =>
    obtain ⟨k, b⟩ := kb
    rw [cellsWf_cons] at hw ⊢
    exact ⟨le_trans h hw.1, hw.2⟩

/-- An address below every listed one reads 0x00. -/
theorem lookupCell_below {a lo : Nat} (ha : a < lo) {cs : List Host.Cell} (hw : cellsWf lo cs = true) :
    lookupCell a cs = 0#8 := by
  induction cs generalizing lo with
  | nil => rfl
  | cons kb rest ih =>
    obtain ⟨k, b⟩ := kb
    rw [cellsWf_cons] at hw
    have hne : a ≠ k := by omega
    simp only [lookupCell, if_neg hne]
    exact ih (by omega : a < k + 1) hw.2.2.2

theorem storeCell_wf {a lo : Nat} {b : Byte} {cs : List Host.Cell} (hlo : lo ≤ a) (ha : a < 4096)
    (hw : cellsWf lo cs = true) : cellsWf lo (storeCell a b cs) = true := by
  induction cs generalizing lo with
  | nil =>
    by_cases hb : b = 0#8
    · simp [storeCell, hb]
    · simp [storeCell, hb, cellsWf, hlo, ha]
  | cons kb rest ih =>
    obtain ⟨k, c⟩ := kb
    have hw' := (cellsWf_cons ..).mp hw
    obtain ⟨hk, hk', hc, hr⟩ := hw'
    unfold storeCell
    by_cases h1 : a < k
    · by_cases hb : b = 0#8
      · simpa [h1, hb] using hw
      · simp only [h1, if_true, if_neg hb, cellsWf_cons]
        exact ⟨hlo, ha, hb, h1, hk', hc, hr⟩
    · by_cases h2 : a = k
      · subst h2
        by_cases hb : b = 0#8
        · simpa [hb] using cellsWf_mono (by omega) hr
        · simp only [lt_irrefl, if_false, if_true, if_neg hb, cellsWf_cons]
          exact ⟨hlo, ha, hb, hr⟩
      · simp only [h1, h2, if_false, cellsWf_cons]
        exact ⟨hk, hk', hc, ih (by omega) hr⟩

/-! ## Reads after a store -/

theorem lookupCell_storeCell_same {a lo : Nat} {b : Byte} {cs : List Host.Cell} (hw : cellsWf lo cs = true) :
    lookupCell a (storeCell a b cs) = b := by
  induction cs generalizing lo with
  | nil =>
    by_cases hb : b = 0#8
    · simp [storeCell, lookupCell, hb]
    · simp [storeCell, lookupCell, hb]
  | cons kb rest ih =>
    obtain ⟨k, c⟩ := kb
    obtain ⟨hk, hk', hc, hr⟩ := (cellsWf_cons ..).mp hw
    unfold storeCell
    by_cases h1 : a < k
    · by_cases hb : b = 0#8
      · have hne : a ≠ k := by omega
        have : lookupCell a rest = 0#8 := lookupCell_below (by omega : a < k + 1) hr
        simp [h1, hb, lookupCell, hne, this]
      · simp [h1, hb, lookupCell]
    · by_cases h2 : a = k
      · subst h2
        by_cases hb : b = 0#8
        · have : lookupCell a rest = 0#8 := lookupCell_below (by omega : a < a + 1) hr
          simp [hb, this]
        · simp [hb, lookupCell]
      · simp [h1, h2, lookupCell, ih hr]

theorem lookupCell_storeCell_other {a k : Nat} {b : Byte} (h : k ≠ a) (cs : List Host.Cell) :
    lookupCell k (storeCell a b cs) = lookupCell k cs := by
  induction cs with
  | nil =>
    by_cases hb : b = 0#8
    · simp [storeCell, hb]
    · simp [storeCell, lookupCell, hb, h]
  | cons qc rest ih =>
    obtain ⟨q, c⟩ := qc
    unfold storeCell
    by_cases h1 : a < q
    · by_cases hb : b = 0#8
      · simp [h1, hb]
      · simp [h1, hb, lookupCell, h]
    · by_cases h2 : a = q
      · subst h2
        by_cases hb : b = 0#8
        · simp [hb, lookupCell, h]
        · simp [hb, lookupCell, h]
      · simp [h1, h2, lookupCell, ih]

/-! ## `Memory` -/

theorem Memory.wf_empty : (Memory.wf ⟨[]⟩) = true := rfl

@[simp] theorem Memory.byteAt_empty (a : Nat) : Memory.byteAt ⟨[]⟩ a = 0#8 := rfl

theorem Memory.wf_write {m : Memory} {a : Nat} {b : Byte} (ha : a < 4096) (hw : m.wf = true) :
    (m.write a b).wf = true :=
  storeCell_wf (Nat.zero_le a) ha hw

theorem Memory.byteAt_write_same {m : Memory} {a : Nat} {b : Byte} (hw : m.wf = true) : (m.write a b).byteAt a = b :=
  lookupCell_storeCell_same hw

theorem Memory.byteAt_write_other {m : Memory} {a k : Nat} {b : Byte} (h : k ≠ a) :
    (m.write a b).byteAt k = m.byteAt k :=
  lookupCell_storeCell_other h m.cells

theorem Memory.read?_eq_some {m : Memory} {a : Nat} (h : a ≤ 0xFFF) : m.read? a = some (m.byteAt a) := by
  simp [Memory.read?, show ¬ a > 0xFFF by omega]

theorem Memory.read?_eq_none {m : Memory} {a : Nat} (h : a > 0xFFF) : m.read? a = none := by
  simp [Memory.read?, h]

/-! ## Consecutive writes -/

theorem Memory.wf_writeBytes {bs : List Byte} {m : Memory} {a : Nat} (h : a + bs.length ≤ 4096) (hw : m.wf = true) :
    (m.writeBytes a bs).wf = true := by
  induction bs generalizing m a with
  | nil => exact hw
  | cons b bs ih =>
    simp only [List.length_cons] at h
    exact ih (by omega) (Memory.wf_write (by omega) hw)

theorem Memory.byteAt_writeBytes_outside {bs : List Byte} {m : Memory} {a k : Nat} (h : k < a ∨ a + bs.length ≤ k) :
    (m.writeBytes a bs).byteAt k = m.byteAt k := by
  induction bs generalizing m a with
  | nil => rfl
  | cons b bs ih =>
    simp only [List.length_cons] at h
    rw [Memory.writeBytes, ih (by omega), Memory.byteAt_write_other (by omega)]

theorem Memory.byteAt_writeBytes_inside {bs : List Byte} {m : Memory} {a j : Nat} (hj : j < bs.length)
    (h : a + bs.length ≤ 4096) (hw : m.wf = true) : (m.writeBytes a bs).byteAt (a + j) = bs[j] := by
  induction bs generalizing m a j with
  | nil => exact absurd hj (Nat.not_lt_zero j)
  | cons b bs ih =>
    simp only [List.length_cons] at h hj
    have hw' : (m.write a b).wf = true := Memory.wf_write (by omega) hw
    cases j with
    | zero =>
      rw [Memory.writeBytes, Memory.byteAt_writeBytes_outside (by omega), Nat.add_zero, Memory.byteAt_write_same hw]
      rfl
    | succ j =>
      have := ih (m := m.write a b) (a := a + 1) (j := j) (by omega) (by omega) hw'
      rw [Memory.writeBytes, show a + (j + 1) = a + 1 + j by omega, this]
      rfl

/-! ## The fetch (40_cycle R96, R97) -/

theorem fetchWord?_eq_none {m : Memory} {pc : Word} (h : pc.toNat ≥ 0xFFF) : fetchWord? m pc = none := by
  simp [fetchWord?, show pc.toNat + 1 > 0xFFF by omega]

theorem fetchWord?_eq_some {m : Memory} {pc : Word} (h : pc.toNat < 0xFFF) :
    fetchWord? m pc = some (wordOfBytes (m.byteAt pc.toNat) (m.byteAt (pc.toNat + 1))) := by
  simp [fetchWord?, show ¬ pc.toNat + 1 > 0xFFF by omega]

theorem fetchWord?_bound {m : Memory} {pc w : Word} (h : fetchWord? m pc = some w) : pc.toNat < 0xFFF := by
  by_contra hn
  simp [fetchWord?_eq_none (m := m) (by omega : pc.toNat ≥ 0xFFF)] at h

end Sys2Proof.Machine
end

