-- ==== Sys2Proof/Laws/Sprite.lean ====
section
/-! SUPPORT. What phase 1 of Draw sprite answers: the cells under the set bits, each once, when every access is in bounds;
else the cause of the first access out of bounds. -/

namespace Sys2Proof.Machine

/-! ## One row -/

/-- The row's bits from `c` on for `k` columns are in bounds. -/
abbrev BitsInBounds (row : Byte) (vx screenRow c k : Nat) : Prop :=
  ∀ d, c ≤ d → d < c + k → spriteBit row d = true → vx + d ≤ 63 ∧ screenRow ≤ 31

theorem rowTargets_ok {row : Byte} {vx sr c k : Nat} {ps : List Pixel} (h : rowTargets row vx sr c k = .ok ps) :
    BitsInBounds row vx sr c k ∧ ps.Nodup ∧
    ∀ p : Pixel, p ∈ ps ↔ ∃ d, c ≤ d ∧ d < c + k ∧ spriteBit row d = true ∧ p.1.val = sr ∧ p.2.val = vx + d := by
  induction k generalizing c ps with
  | zero =>
    cases h
    exact ⟨fun d h1 h2 => by omega, List.nodup_nil, fun p => ⟨fun hp => (by cases hp), fun ⟨d, h1, h2, _⟩ => by omega⟩⟩
  | succ k ih =>
    unfold rowTargets at h
    by_cases hb : spriteBit row c = true
    · rw [if_pos hb] at h
      cases hp : pixel? sr (vx + c) with
      | none => rw [hp] at h; cases h
      | some p =>
        have hpv := pixel?_eq_some_iff.mp hp
        rw [hp] at h
        cases hr : rowTargets row vx sr (c + 1) k with
        | error e => rw [hr] at h; cases h
        | ok qs =>
          rw [hr] at h
          cases h
          obtain ⟨hin, hnd, hmem⟩ := ih hr
          refine ⟨fun d h1 h2 hd => ?_, List.nodup_cons.mpr ⟨fun hpq => ?_, hnd⟩, fun q => ?_⟩
          · by_cases hcd : d = c
            · subst hcd
              have := p.1.isLt
              have := p.2.isLt
              omega
            · exact hin d (by omega) (by omega) hd
          · obtain ⟨d, h1, -, -, -, h5⟩ := (hmem p).mp hpq
            omega
          · rw [List.mem_cons, hmem]
            constructor
            · rintro (rfl | ⟨d, h1, h2, h3⟩)
              · exact ⟨c, le_refl c, by omega, hb, hpv⟩
              · exact ⟨d, by omega, by omega, h3⟩
            · rintro ⟨d, h1, h2, h3, h4, h5⟩
              by_cases hcd : d = c
              · subst hcd
                exact .inl (Prod.ext (Fin.ext (by omega)) (Fin.ext (by omega)))
              · exact .inr ⟨d, by omega, by omega, h3, h4, h5⟩
    · rw [if_neg hb] at h
      obtain ⟨hin, hnd, hmem⟩ := ih h
      refine ⟨fun d h1 h2 hd => ?_, hnd, fun q => ?_⟩
      · by_cases hcd : d = c
        · subst hcd; exact absurd hd hb
        · exact hin d (by omega) (by omega) hd
      · rw [hmem]
        constructor
        · rintro ⟨d, h1, h2, h3⟩
          exact ⟨d, by omega, by omega, h3⟩
        · rintro ⟨d, h1, h2, h3, h4⟩
          by_cases hcd : d = c
          · subst hcd; exact absurd h3 hb
          · exact ⟨d, by omega, by omega, h3, h4⟩

theorem rowTargets_error {row : Byte} {vx sr c k : Nat} {e : FaultCause} (h : rowTargets row vx sr c k = .error e) :
    e = .spriteFbOutOfBounds ∧
    ∃ d, c ≤ d ∧ d < c + k ∧ spriteBit row d = true ∧ (vx + d > 63 ∨ sr > 31) := by
  induction k generalizing c with
  | zero => cases h
  | succ k ih =>
    unfold rowTargets at h
    by_cases hb : spriteBit row c = true
    · rw [if_pos hb] at h
      cases hp : pixel? sr (vx + c) with
      | none =>
        rw [hp] at h
        cases h
        exact ⟨rfl, c, le_refl c, by omega, hb, pixel?_eq_none_iff.mp hp⟩
      | some p =>
        rw [hp] at h
        cases hr : rowTargets row vx sr (c + 1) k with
        | ok qs => rw [hr] at h; cases h
        | error e' =>
          rw [hr] at h
          cases h
          obtain ⟨he, d, h1, h2, h3⟩ := ih hr
          exact ⟨he, d, by omega, by omega, h3⟩
    · rw [if_neg hb] at h
      obtain ⟨he, d, h1, h2, h3⟩ := ih h
      exact ⟨he, d, by omega, by omega, h3⟩

/-! ## All rows -/

/-- Row `r` of the sprite at `addr`, drawn at column `vx`, row `vy`, makes no access out of bounds. -/
abbrev RowOk (m : Memory) (addr vx vy r : Nat) : Prop :=
  addr + r ≤ 0xFFF ∧ ∀ c, c < 8 → spriteBit (m.byteAt (addr + r)) c = true → vx + c ≤ 63 ∧ vy + r ≤ 31

theorem spriteTargets_ok {m : Memory} {addr vx vy r k : Nat} {ps : List Pixel}
    (h : spriteTargets m addr vx vy r k = .ok ps) :
    (∀ q, r ≤ q → q < r + k → RowOk m addr vx vy q) ∧ ps.Nodup ∧
    ∀ p : Pixel, p ∈ ps ↔ ∃ q, r ≤ q ∧ q < r + k ∧ ∃ c, c < 8 ∧ spriteBit (m.byteAt (addr + q)) c = true ∧
      p.1.val = vy + q ∧ p.2.val = vx + c := by
  induction k generalizing r ps with
  | zero =>
    cases h
    exact ⟨fun q h1 h2 => by omega, List.nodup_nil, fun p => ⟨fun hp => (by cases hp), fun ⟨q, h1, h2, _⟩ => by omega⟩⟩
  | succ k ih =>
    unfold spriteTargets at h
    by_cases hm : addr + r ≤ 0xFFF
    · rw [Memory.read?_eq_some hm] at h
      dsimp only at h
      cases hrow : rowTargets (m.byteAt (addr + r)) vx (vy + r) 0 8 with
      | error e => rw [hrow] at h; cases h
      | ok qs =>
        rw [hrow] at h
        dsimp only at h
        cases hrest : spriteTargets m addr vx vy (r + 1) k with
        | error e => rw [hrest] at h; cases h
        | ok rs =>
          rw [hrest] at h
          cases h
          obtain ⟨hin, hnd, hmem⟩ := rowTargets_ok hrow
          obtain ⟨hin', hnd', hmem'⟩ := ih hrest
          refine ⟨fun q h1 h2 => ?_, ?_, fun p => ?_⟩
          · by_cases hqr : q = r
            · subst hqr
              exact ⟨hm, fun c hc hb => hin c (Nat.zero_le c) (by omega) hb⟩
            · exact hin' q (by omega) (by omega)
          · refine List.nodup_append'.mpr ⟨hnd, hnd', fun p h1 h2 => ?_⟩
            obtain ⟨d, -, -, -, h3, -⟩ := (hmem p).mp h1
            obtain ⟨q, h4, -, c, -, -, h5, -⟩ := (hmem' p).mp h2
            omega
          · rw [List.mem_append, hmem, hmem']
            constructor
            · rintro (⟨c, -, h2, h3, h4, h5⟩ | ⟨q, h1, h2, h3⟩)
              · exact ⟨r, le_refl r, by omega, c, by omega, h3, h4, h5⟩
              · exact ⟨q, by omega, by omega, h3⟩
            · rintro ⟨q, h1, h2, c, h3, h4, h5, h6⟩
              by_cases hqr : q = r
              · subst hqr
                exact .inl ⟨c, Nat.zero_le c, by omega, h4, h5, h6⟩
              · exact .inr ⟨q, by omega, by omega, c, h3, h4, h5, h6⟩
    · rw [Memory.read?_eq_none (by omega)] at h
      cases h

theorem spriteTargets_error {m : Memory} {addr vx vy r k : Nat} {e : FaultCause}
    (h : spriteTargets m addr vx vy r k = .error e) :
    ∃ q, r ≤ q ∧ q < r + k ∧ (∀ p, r ≤ p → p < q → RowOk m addr vx vy p) ∧
      ((e = .spriteMemOutOfBounds ∧ addr + q > 0xFFF) ∨
       (e = .spriteFbOutOfBounds ∧ addr + q ≤ 0xFFF ∧
        ∃ c, c < 8 ∧ spriteBit (m.byteAt (addr + q)) c = true ∧ (vx + c > 63 ∨ vy + q > 31))) := by
  induction k generalizing r with
  | zero => cases h
  | succ k ih =>
    unfold spriteTargets at h
    by_cases hm : addr + r ≤ 0xFFF
    · rw [Memory.read?_eq_some hm] at h
      dsimp only at h
      cases hrow : rowTargets (m.byteAt (addr + r)) vx (vy + r) 0 8 with
      | error e' =>
        rw [hrow] at h
        cases h
        obtain ⟨he, c, -, h2, h3, h4⟩ := rowTargets_error hrow
        exact ⟨r, le_refl r, by omega, fun p h1 h2 => by omega, .inr ⟨he, hm, c, by omega, h3, h4⟩⟩
      | ok qs =>
        rw [hrow] at h
        dsimp only at h
        obtain ⟨hin, -, -⟩ := rowTargets_ok hrow
        cases hrest : spriteTargets m addr vx vy (r + 1) k with
        | ok rs => rw [hrest] at h; cases h
        | error e' =>
          rw [hrest] at h
          cases h
          obtain ⟨q, h1, h2, h3, h4⟩ := ih hrest
          refine ⟨q, by omega, by omega, fun p h5 h6 => ?_, h4⟩
          by_cases hpr : p = r
          · subst hpr
            exact ⟨hm, fun c hc hb => hin c (Nat.zero_le c) (by omega) hb⟩
          · exact h3 p (by omega) h6
    · rw [Memory.read?_eq_none (by omega)] at h
      cases h
      exact ⟨r, le_refl r, by omega, fun p h1 h2 => by omega, .inl ⟨rfl, by omega⟩⟩

end Sys2Proof.Machine
end

