-- ==== Sys2Proof/Laws/State.lean ====
section
/-! SUPPORT. One lemma per field per update of State, true by definition, so that no later proof unfolds a record update;
and the laws of the general registers. -/

namespace Sys2Proof.Machine

/-! ## `State.setV` -/

@[simp] theorem State.setV_v (s : State) (x : RegIdx) (b : Byte) : (s.setV x b).v = s.v.set x b := rfl
@[simp] theorem State.setV_i (s : State) (x : RegIdx) (b : Byte) : (s.setV x b).i = s.i := rfl
@[simp] theorem State.setV_pc (s : State) (x : RegIdx) (b : Byte) : (s.setV x b).pc = s.pc := rfl
@[simp] theorem State.setV_sp (s : State) (x : RegIdx) (b : Byte) : (s.setV x b).sp = s.sp := rfl
@[simp] theorem State.setV_stack (s : State) (x : RegIdx) (b : Byte) : (s.setV x b).stack = s.stack := rfl
@[simp] theorem State.setV_dt (s : State) (x : RegIdx) (b : Byte) : (s.setV x b).dt = s.dt := rfl
@[simp] theorem State.setV_st (s : State) (x : RegIdx) (b : Byte) : (s.setV x b).st = s.st := rfl
@[simp] theorem State.setV_running (s : State) (x : RegIdx) (b : Byte) : (s.setV x b).running = s.running := rfl
@[simp] theorem State.setV_draw (s : State) (x : RegIdx) (b : Byte) : (s.setV x b).draw = s.draw := rfl
@[simp] theorem State.setV_fb (s : State) (x : RegIdx) (b : Byte) : (s.setV x b).fb = s.fb := rfl
@[simp] theorem State.setV_mem (s : State) (x : RegIdx) (b : Byte) : (s.setV x b).mem = s.mem := rfl
@[simp] theorem State.setV_faultCause (s : State) (x : RegIdx) (b : Byte) : (s.setV x b).faultCause = s.faultCause := rfl
@[simp] theorem State.setV_faultPc (s : State) (x : RegIdx) (b : Byte) : (s.setV x b).faultPc = s.faultPc := rfl

/-! ## `State.setI` -/

@[simp] theorem State.setI_v (s : State) (a : Word) : (s.setI a).v = s.v := rfl
@[simp] theorem State.setI_i (s : State) (a : Word) : (s.setI a).i = a := rfl
@[simp] theorem State.setI_pc (s : State) (a : Word) : (s.setI a).pc = s.pc := rfl
@[simp] theorem State.setI_sp (s : State) (a : Word) : (s.setI a).sp = s.sp := rfl
@[simp] theorem State.setI_stack (s : State) (a : Word) : (s.setI a).stack = s.stack := rfl
@[simp] theorem State.setI_dt (s : State) (a : Word) : (s.setI a).dt = s.dt := rfl
@[simp] theorem State.setI_st (s : State) (a : Word) : (s.setI a).st = s.st := rfl
@[simp] theorem State.setI_running (s : State) (a : Word) : (s.setI a).running = s.running := rfl
@[simp] theorem State.setI_draw (s : State) (a : Word) : (s.setI a).draw = s.draw := rfl
@[simp] theorem State.setI_fb (s : State) (a : Word) : (s.setI a).fb = s.fb := rfl
@[simp] theorem State.setI_mem (s : State) (a : Word) : (s.setI a).mem = s.mem := rfl
@[simp] theorem State.setI_faultCause (s : State) (a : Word) : (s.setI a).faultCause = s.faultCause := rfl
@[simp] theorem State.setI_faultPc (s : State) (a : Word) : (s.setI a).faultPc = s.faultPc := rfl

/-! ## `State.setPc` -/

@[simp] theorem State.setPc_v (s : State) (a : Word) : (s.setPc a).v = s.v := rfl
@[simp] theorem State.setPc_i (s : State) (a : Word) : (s.setPc a).i = s.i := rfl
@[simp] theorem State.setPc_pc (s : State) (a : Word) : (s.setPc a).pc = a := rfl
@[simp] theorem State.setPc_sp (s : State) (a : Word) : (s.setPc a).sp = s.sp := rfl
@[simp] theorem State.setPc_stack (s : State) (a : Word) : (s.setPc a).stack = s.stack := rfl
@[simp] theorem State.setPc_dt (s : State) (a : Word) : (s.setPc a).dt = s.dt := rfl
@[simp] theorem State.setPc_st (s : State) (a : Word) : (s.setPc a).st = s.st := rfl
@[simp] theorem State.setPc_running (s : State) (a : Word) : (s.setPc a).running = s.running := rfl
@[simp] theorem State.setPc_draw (s : State) (a : Word) : (s.setPc a).draw = s.draw := rfl
@[simp] theorem State.setPc_fb (s : State) (a : Word) : (s.setPc a).fb = s.fb := rfl
@[simp] theorem State.setPc_mem (s : State) (a : Word) : (s.setPc a).mem = s.mem := rfl
@[simp] theorem State.setPc_faultCause (s : State) (a : Word) : (s.setPc a).faultCause = s.faultCause := rfl
@[simp] theorem State.setPc_faultPc (s : State) (a : Word) : (s.setPc a).faultPc = s.faultPc := rfl

/-! ## `State.setFb` -/

@[simp] theorem State.setFb_v (s : State) (f : Framebuffer) : (s.setFb f).v = s.v := rfl
@[simp] theorem State.setFb_i (s : State) (f : Framebuffer) : (s.setFb f).i = s.i := rfl
@[simp] theorem State.setFb_pc (s : State) (f : Framebuffer) : (s.setFb f).pc = s.pc := rfl
@[simp] theorem State.setFb_sp (s : State) (f : Framebuffer) : (s.setFb f).sp = s.sp := rfl
@[simp] theorem State.setFb_stack (s : State) (f : Framebuffer) : (s.setFb f).stack = s.stack := rfl
@[simp] theorem State.setFb_dt (s : State) (f : Framebuffer) : (s.setFb f).dt = s.dt := rfl
@[simp] theorem State.setFb_st (s : State) (f : Framebuffer) : (s.setFb f).st = s.st := rfl
@[simp] theorem State.setFb_running (s : State) (f : Framebuffer) : (s.setFb f).running = s.running := rfl
@[simp] theorem State.setFb_draw (s : State) (f : Framebuffer) : (s.setFb f).draw = s.draw := rfl
@[simp] theorem State.setFb_fb (s : State) (f : Framebuffer) : (s.setFb f).fb = f := rfl
@[simp] theorem State.setFb_mem (s : State) (f : Framebuffer) : (s.setFb f).mem = s.mem := rfl
@[simp] theorem State.setFb_faultCause (s : State) (f : Framebuffer) : (s.setFb f).faultCause = s.faultCause := rfl
@[simp] theorem State.setFb_faultPc (s : State) (f : Framebuffer) : (s.setFb f).faultPc = s.faultPc := rfl

/-! ## `State.setDraw` -/

@[simp] theorem State.setDraw_v (s : State) (b : Bool) : (s.setDraw b).v = s.v := rfl
@[simp] theorem State.setDraw_i (s : State) (b : Bool) : (s.setDraw b).i = s.i := rfl
@[simp] theorem State.setDraw_pc (s : State) (b : Bool) : (s.setDraw b).pc = s.pc := rfl
@[simp] theorem State.setDraw_sp (s : State) (b : Bool) : (s.setDraw b).sp = s.sp := rfl
@[simp] theorem State.setDraw_stack (s : State) (b : Bool) : (s.setDraw b).stack = s.stack := rfl
@[simp] theorem State.setDraw_dt (s : State) (b : Bool) : (s.setDraw b).dt = s.dt := rfl
@[simp] theorem State.setDraw_st (s : State) (b : Bool) : (s.setDraw b).st = s.st := rfl
@[simp] theorem State.setDraw_running (s : State) (b : Bool) : (s.setDraw b).running = s.running := rfl
@[simp] theorem State.setDraw_draw (s : State) (b : Bool) : (s.setDraw b).draw = b := rfl
@[simp] theorem State.setDraw_fb (s : State) (b : Bool) : (s.setDraw b).fb = s.fb := rfl
@[simp] theorem State.setDraw_mem (s : State) (b : Bool) : (s.setDraw b).mem = s.mem := rfl
@[simp] theorem State.setDraw_faultCause (s : State) (b : Bool) : (s.setDraw b).faultCause = s.faultCause := rfl
@[simp] theorem State.setDraw_faultPc (s : State) (b : Bool) : (s.setDraw b).faultPc = s.faultPc := rfl

/-! ## `State.advance` -/

@[simp] theorem State.advance_v (s : State) : (s.advance).v = s.v := rfl
@[simp] theorem State.advance_i (s : State) : (s.advance).i = s.i := rfl
@[simp] theorem State.advance_pc (s : State) : (s.advance).pc = s.pc + 2 := rfl
@[simp] theorem State.advance_sp (s : State) : (s.advance).sp = s.sp := rfl
@[simp] theorem State.advance_stack (s : State) : (s.advance).stack = s.stack := rfl
@[simp] theorem State.advance_dt (s : State) : (s.advance).dt = s.dt := rfl
@[simp] theorem State.advance_st (s : State) : (s.advance).st = s.st := rfl
@[simp] theorem State.advance_running (s : State) : (s.advance).running = s.running := rfl
@[simp] theorem State.advance_draw (s : State) : (s.advance).draw = s.draw := rfl
@[simp] theorem State.advance_fb (s : State) : (s.advance).fb = s.fb := rfl
@[simp] theorem State.advance_mem (s : State) : (s.advance).mem = s.mem := rfl
@[simp] theorem State.advance_faultCause (s : State) : (s.advance).faultCause = s.faultCause := rfl
@[simp] theorem State.advance_faultPc (s : State) : (s.advance).faultPc = s.faultPc := rfl

/-! ## `State.raiseFault` -/

@[simp] theorem State.raiseFault_v (s : State) (e : FaultCause) (a : Word) : (s.raiseFault e a).v = s.v := rfl
@[simp] theorem State.raiseFault_i (s : State) (e : FaultCause) (a : Word) : (s.raiseFault e a).i = s.i := rfl
@[simp] theorem State.raiseFault_pc (s : State) (e : FaultCause) (a : Word) : (s.raiseFault e a).pc = s.pc := rfl
@[simp] theorem State.raiseFault_sp (s : State) (e : FaultCause) (a : Word) : (s.raiseFault e a).sp = s.sp := rfl
@[simp] theorem State.raiseFault_stack (s : State) (e : FaultCause) (a : Word) : (s.raiseFault e a).stack = s.stack := rfl
@[simp] theorem State.raiseFault_dt (s : State) (e : FaultCause) (a : Word) : (s.raiseFault e a).dt = s.dt := rfl
@[simp] theorem State.raiseFault_st (s : State) (e : FaultCause) (a : Word) : (s.raiseFault e a).st = s.st := rfl
@[simp] theorem State.raiseFault_running (s : State) (e : FaultCause) (a : Word) : (s.raiseFault e a).running = false := rfl
@[simp] theorem State.raiseFault_draw (s : State) (e : FaultCause) (a : Word) : (s.raiseFault e a).draw = s.draw := rfl
@[simp] theorem State.raiseFault_fb (s : State) (e : FaultCause) (a : Word) : (s.raiseFault e a).fb = s.fb := rfl
@[simp] theorem State.raiseFault_mem (s : State) (e : FaultCause) (a : Word) : (s.raiseFault e a).mem = s.mem := rfl
@[simp] theorem State.raiseFault_faultCause (s : State) (e : FaultCause) (a : Word) : (s.raiseFault e a).faultCause = e := rfl
@[simp] theorem State.raiseFault_faultPc (s : State) (e : FaultCause) (a : Word) : (s.raiseFault e a).faultPc = a := rfl

/-! ## `loadFailed` -/

@[simp] theorem loadFailed_v (s : State) : (loadFailed s).v = s.v := rfl
@[simp] theorem loadFailed_i (s : State) : (loadFailed s).i = s.i := rfl
@[simp] theorem loadFailed_pc (s : State) : (loadFailed s).pc = s.pc := rfl
@[simp] theorem loadFailed_sp (s : State) : (loadFailed s).sp = s.sp := rfl
@[simp] theorem loadFailed_stack (s : State) : (loadFailed s).stack = s.stack := rfl
@[simp] theorem loadFailed_dt (s : State) : (loadFailed s).dt = s.dt := rfl
@[simp] theorem loadFailed_st (s : State) : (loadFailed s).st = s.st := rfl
@[simp] theorem loadFailed_running (s : State) : (loadFailed s).running = s.running := rfl
@[simp] theorem loadFailed_draw (s : State) : (loadFailed s).draw = s.draw := rfl
@[simp] theorem loadFailed_fb (s : State) : (loadFailed s).fb = s.fb := rfl
@[simp] theorem loadFailed_mem (s : State) : (loadFailed s).mem = s.mem := rfl
@[simp] theorem loadFailed_faultCause (s : State) : (loadFailed s).faultCause = .loadFailure := rfl
@[simp] theorem loadFailed_faultPc (s : State) : (loadFailed s).faultPc = s.faultPc := rfl

/-! ## `quit` -/

@[simp] theorem quit_v (s : State) : (quit s).v = s.v := rfl
@[simp] theorem quit_i (s : State) : (quit s).i = s.i := rfl
@[simp] theorem quit_pc (s : State) : (quit s).pc = s.pc := rfl
@[simp] theorem quit_sp (s : State) : (quit s).sp = s.sp := rfl
@[simp] theorem quit_stack (s : State) : (quit s).stack = s.stack := rfl
@[simp] theorem quit_dt (s : State) : (quit s).dt = s.dt := rfl
@[simp] theorem quit_st (s : State) : (quit s).st = s.st := rfl
@[simp] theorem quit_running (s : State) : (quit s).running = false := rfl
@[simp] theorem quit_draw (s : State) : (quit s).draw = s.draw := rfl
@[simp] theorem quit_fb (s : State) : (quit s).fb = s.fb := rfl
@[simp] theorem quit_mem (s : State) : (quit s).mem = s.mem := rfl
@[simp] theorem quit_faultCause (s : State) : (quit s).faultCause = s.faultCause := rfl
@[simp] theorem quit_faultPc (s : State) : (quit s).faultPc = s.faultPc := rfl

/-! ## `renderAck` -/

@[simp] theorem renderAck_v (s : State) : (renderAck s).v = s.v := rfl
@[simp] theorem renderAck_i (s : State) : (renderAck s).i = s.i := rfl
@[simp] theorem renderAck_pc (s : State) : (renderAck s).pc = s.pc := rfl
@[simp] theorem renderAck_sp (s : State) : (renderAck s).sp = s.sp := rfl
@[simp] theorem renderAck_stack (s : State) : (renderAck s).stack = s.stack := rfl
@[simp] theorem renderAck_dt (s : State) : (renderAck s).dt = s.dt := rfl
@[simp] theorem renderAck_st (s : State) : (renderAck s).st = s.st := rfl
@[simp] theorem renderAck_running (s : State) : (renderAck s).running = s.running := rfl
@[simp] theorem renderAck_draw (s : State) : (renderAck s).draw = false := rfl
@[simp] theorem renderAck_fb (s : State) : (renderAck s).fb = s.fb := rfl
@[simp] theorem renderAck_mem (s : State) : (renderAck s).mem = s.mem := rfl
@[simp] theorem renderAck_faultCause (s : State) : (renderAck s).faultCause = s.faultCause := rfl
@[simp] theorem renderAck_faultPc (s : State) : (renderAck s).faultPc = s.faultPc := rfl

/-! ## General registers (10_state R22) -/

@[simp] theorem readV_setV_same (s : State) (x : RegIdx) (b : Byte) : (s.setV x b).readV x = b := by
  simp [State.readV]

theorem readV_setV_other (s : State) (x k : RegIdx) (b : Byte) (h : k ≠ x) : (s.setV x b).readV k = s.readV k := by
  have hv : x.val ≠ k.val := fun e => h (Fin.ext e.symm)
  simp [State.readV, Vector.getElem_set_ne _ _ hv]

@[simp] theorem readV_setI (s : State) (a : Word) (k : RegIdx) : (s.setI a).readV k = s.readV k := rfl
@[simp] theorem readV_setPc (s : State) (a : Word) (k : RegIdx) : (s.setPc a).readV k = s.readV k := rfl
@[simp] theorem readV_setFb (s : State) (f : Framebuffer) (k : RegIdx) : (s.setFb f).readV k = s.readV k := rfl
@[simp] theorem readV_setDraw (s : State) (b : Bool) (k : RegIdx) : (s.setDraw b).readV k = s.readV k := rfl
@[simp] theorem readV_advance (s : State) (k : RegIdx) : s.advance.readV k = s.readV k := rfl
@[simp] theorem readV_raiseFault (s : State) (e : FaultCause) (a : Word) (k : RegIdx) :
    (s.raiseFault e a).readV k = s.readV k := rfl

/-- The execute phase finds the instruction's address again (40_cycle R102). -/
@[simp] theorem instrAddr_advance (s : State) : s.advance.instrAddr = s.pc := by
  simp [State.instrAddr, State.advance, State.setPc]

end Sys2Proof.Machine
end

