-- ==== Sys2Proof/Laws/Exec.lean ====
section
/-! SUPPORT. What each meaning and the step can answer, said once; later proofs cite these and unfold neither. -/

namespace Sys2Proof.Machine

/-! ## The meanings without a case split -/

theorem exec_cls (s : State) :
    exec .cls s = .next ((s.setFb Framebuffer.blank).setDraw (drawAfterCls defaultConfig s.draw)) := rfl
theorem exec_jp (nnn : Addr12) (s : State) : exec (.jp nnn) s = .next (s.setPc (addrOperand nnn)) := rfl
theorem exec_ldVx (x : RegIdx) (nn : Byte) (s : State) : exec (.ldVx x nn) s = .next (s.setV x nn) := rfl
theorem exec_addVx (x : RegIdx) (nn : Byte) (s : State) :
    exec (.addVx x nn) s = .next (s.setV x (s.readV x + nn)) := rfl
theorem exec_ldI (nnn : Addr12) (s : State) : exec (.ldI nnn) s = .next (s.setI (addrOperand nnn)) := rfl

theorem execWith_cls (cfg : Config) (s : State) :
    execWith cfg .cls s = .next ((s.setFb Framebuffer.blank).setDraw (drawAfterCls cfg s.draw)) := rfl

/-- The default parameters give the dispatcher. -/
theorem execWith_default (i : Instr) (s : State) : execWith defaultConfig i s = exec i s := by
  cases i <;> rfl

/-- The address operand is below 0x1000 (30_encoding R78). -/
theorem addrOperand_lt (nnn : Addr12) : (addrOperand nnn).toNat < 4096 := by
  have := nnn.isLt
  simp only [addrOperand, BitVec.toNat_setWidth]
  omega

/-! ## Draw sprite -/

/-- The state Draw sprite leaves when it toggles the cells `ps`. -/
def drawn (s : State) (ps : List Pixel) : State :=
  ((s.setV flagReg (collisionFlag (toggleAll s.fb ps).2)).setFb (toggleAll s.fb ps).1).setDraw true

/-- Everything Draw sprite can answer: the sprite in bounds drawn, or the fault of the first access out of bounds. -/
theorem exec_drw_cases (x y : RegIdx) (n : Nat) (s : State) :
    (SpriteInBounds x y n s ∧ ∃ ps : List Pixel, ps.Nodup ∧ (∀ p, p ∈ ps ↔ UnderSprite x y n s p) ∧
      exec (.drw x y n) s = .next (drawn s ps)) ∨
    (∃ r, FirstFaultIsMemory x y n s r ∧
      exec (.drw x y n) s = .next (s.raiseFault .spriteMemOutOfBounds s.instrAddr)) ∨
    (∃ r, FirstFaultIsPixel x y n s r ∧
      exec (.drw x y n) s = .next (s.raiseFault .spriteFbOutOfBounds s.instrAddr)) := by
  cases h : spriteTargets s.mem s.i.toNat (s.readV x).toNat (s.readV y).toNat 0 n with
  | ok ps =>
    obtain ⟨hin, hnd, hmem⟩ := spriteTargets_ok h
    refine .inl ⟨fun r hr => hin r (Nat.zero_le r) (by omega), ps, hnd, fun p => ?_, ?_⟩
    · rw [hmem]
      constructor
      · rintro ⟨q, -, h2, h3⟩
        exact ⟨q, by omega, h3⟩
      · rintro ⟨q, h2, h3⟩
        exact ⟨q, Nat.zero_le q, by omega, h3⟩
    · simp only [exec, execDrw, h, drawn]
  | error e =>
    obtain ⟨q, -, h2, h3, ⟨rfl, h4⟩ | ⟨rfl, h4, h5⟩⟩ := spriteTargets_error h
    · exact .inr (.inl ⟨q, ⟨by omega, fun p hp => h3 p (Nat.zero_le p) hp, h4⟩, by simp only [exec, execDrw, h]⟩)
    · exact .inr (.inr ⟨q, ⟨by omega, fun p hp => h3 p (Nat.zero_le p) hp, h4, h5⟩, by simp only [exec, execDrw, h]⟩)

/-- A row that is the first to fault is not in bounds. -/
theorem FirstFaultIsMemory.not_inBounds {x y : RegIdx} {n : Nat} {s : State} {r : Nat}
    (h : FirstFaultIsMemory x y n s r) : ¬ SpriteInBounds x y n s := fun hin => by
  have := (hin r h.1).1
  have := h.2.2
  omega

theorem FirstFaultIsPixel.not_inBounds {x y : RegIdx} {n : Nat} {s : State} {r : Nat}
    (h : FirstFaultIsPixel x y n s r) : ¬ SpriteInBounds x y n s := fun hin => by
  obtain ⟨c, hc, hb, ho⟩ := h.2.2.2
  have := (hin r h.1).2 c hc hb
  omega

/-- A sprite in bounds is drawn: each cell under a set bit once. -/
theorem exec_drw_inBounds {x y : RegIdx} {n : Nat} {s : State} (h : SpriteInBounds x y n s) :
    ∃ ps : List Pixel, ps.Nodup ∧ (∀ p, p ∈ ps ↔ UnderSprite x y n s p) ∧ exec (.drw x y n) s = .next (drawn s ps) := by
  rcases exec_drw_cases x y n s with ⟨-, h'⟩ | ⟨r, h', -⟩ | ⟨r, h', -⟩
  · exact h'
  · exact absurd h h'.not_inBounds
  · exact absurd h h'.not_inBounds

/-- The collision flag's register after a draw. -/
@[simp] theorem readV_flagReg_drawn (s : State) (ps : List Pixel) :
    (drawn s ps).readV flagReg = collisionFlag (toggleAll s.fb ps).2 := by
  simp [drawn]

/-- The two kinds of first access out of bounds exclude each other. -/
theorem FirstFaultIsMemory.not_pixel {x y : RegIdx} {n : Nat} {s : State} {r q : Nat}
    (h : FirstFaultIsMemory x y n s r) : ¬ FirstFaultIsPixel x y n s q := fun h' => by
  obtain ⟨c, hc, hb, ho⟩ := h'.2.2.2
  rcases Nat.lt_trichotomy r q with hlt | rfl | hlt
  · have := (h'.2.1 r hlt).1
    have := h.2.2
    omega
  · have := h'.2.2.1
    have := h.2.2
    omega
  · have := (h.2.1 q hlt).2 c hc hb
    omega

/-- What Draw sprite can write, whatever the sprite. -/
theorem exec_drw_next {x y : RegIdx} {n : Nat} {s t : State} (h : exec (.drw x y n) s = .next t) :
    (∃ f b, t = ((s.setV flagReg b).setFb f).setDraw true) ∨
    (∃ e, (e = .spriteMemOutOfBounds ∨ e = .spriteFbOutOfBounds) ∧ t = s.raiseFault e s.instrAddr) := by
  rcases exec_drw_cases x y n s with ⟨-, ps, -, -, h'⟩ | ⟨r, -, h'⟩ | ⟨r, -, h'⟩ <;> rw [h'] at h <;> cases h
  · exact .inl ⟨_, _, rfl⟩
  · exact .inr ⟨_, .inl rfl, rfl⟩
  · exact .inr ⟨_, .inr rfl, rfl⟩

/-- Everything an instruction can write. -/
theorem exec_next_cases {i : Instr} {s t : State} (he : exec i s = .next t) :
    (i = .cls ∧ t = (s.setFb Framebuffer.blank).setDraw (drawAfterCls defaultConfig s.draw)) ∨
    (∃ nnn, i = .jp nnn ∧ t = s.setPc (addrOperand nnn)) ∨
    (∃ x nn, i = .ldVx x nn ∧ t = s.setV x nn) ∨
    (∃ x nn, i = .addVx x nn ∧ t = s.setV x (s.readV x + nn)) ∨
    (∃ nnn, i = .ldI nnn ∧ t = s.setI (addrOperand nnn)) ∨
    (∃ x y n, i = .drw x y n ∧
      ((∃ f b, t = ((s.setV flagReg b).setFb f).setDraw true) ∨
       (∃ e, (e = .spriteMemOutOfBounds ∨ e = .spriteFbOutOfBounds) ∧ t = s.raiseFault e s.instrAddr))) := by
  cases i with
  | cls => cases he; exact .inl ⟨rfl, rfl⟩
  | jp nnn => cases he; exact .inr (.inl ⟨_, rfl, rfl⟩)
  | ldVx x nn => cases he; exact .inr (.inr (.inl ⟨_, _, rfl, rfl⟩))
  | addVx x nn => cases he; exact .inr (.inr (.inr (.inl ⟨_, _, rfl, rfl⟩)))
  | ldI nnn => cases he; exact .inr (.inr (.inr (.inr (.inl ⟨_, rfl, rfl⟩))))
  | drw x y n => exact .inr (.inr (.inr (.inr (.inr ⟨_, _, _, rfl, exec_drw_next he⟩))))

/-- The execute phase with other parameters differs for Clear screen only. -/
theorem execWith_next_cases {cfg : Config} {i : Instr} {s t : State} (h : execWith cfg i s = .next t) :
    (i = .cls ∧ t = (s.setFb Framebuffer.blank).setDraw (drawAfterCls cfg s.draw)) ∨ (exec i s = .next t ∧ i ≠ .cls) := by
  cases i with
  | cls => cases h; exact .inl ⟨rfl, rfl⟩
  | jp nnn => exact .inr ⟨h, Instr.noConfusion⟩
  | ldVx x nn => exact .inr ⟨h, Instr.noConfusion⟩
  | addVx x nn => exact .inr ⟨h, Instr.noConfusion⟩
  | ldI nnn => exact .inr ⟨h, Instr.noConfusion⟩
  | drw x y n => exact .inr ⟨h, Instr.noConfusion⟩

/-! ## The step -/

theorem fetchWord?_of_canFetch {s : State} (h : s.CanFetch) : fetchWord? s.mem s.pc = some s.wordAtPc :=
  fetchWord?_eq_some (by have := h.2; omega)

/-- Everything a step can do, guards included (40_cycle R95). -/
theorem stepWith_cases (cfg : Config) (s : State) :
    (s.running = false ∧ stepWith cfg s = .next s) ∨
    (s.running = true ∧ fetchWord? s.mem s.pc = none ∧
      stepWith cfg s = .next (s.raiseFault .fetchOutOfBounds s.pc)) ∨
    (∃ w i, s.running = true ∧ fetchWord? s.mem s.pc = some w ∧ decodeWord w = .op i ∧
      stepWith cfg s = execWith cfg i s.advance) ∨
    (∃ w, s.running = true ∧ fetchWord? s.mem s.pc = some w ∧ decodeWord w = .unknown ∧
      stepWith cfg s = execUnknown cfg s.advance) := by
  cases hr : s.running with
  | false => exact .inl ⟨rfl, by simp [stepWith, hr]⟩
  | true =>
    cases hf : fetchWord? s.mem s.pc with
    | none => exact .inr (.inl ⟨rfl, rfl, by simp [stepWith, hr, hf]⟩)
    | some w =>
      cases hd : decodeWord w with
      | op i => exact .inr (.inr (.inl ⟨w, i, rfl, rfl, hd, by simp [stepWith, hr, hf, hd]⟩))
      | unknown => exact .inr (.inr (.inr ⟨w, rfl, rfl, hd, by simp [stepWith, hr, hf, hd]⟩))


/-- Everything a step can leave (40_cycle R95): nothing done, the fetch fault, an instruction run after the advance, or an
unknown word passed over or faulting. -/
theorem stepWith_next_cases {cfg : Config} {s t : State} (h : stepWith cfg s = .next t) :
    (s.running = false ∧ t = s) ∨
    (s.running = true ∧ s.pc.toNat ≥ 0xFFF ∧ t = s.raiseFault .fetchOutOfBounds s.pc) ∨
    (s.CanFetch ∧ decodeWord s.wordAtPc = .op .cls ∧
      t = (s.advance.setFb Framebuffer.blank).setDraw (drawAfterCls cfg s.draw)) ∨
    (∃ i, s.CanFetch ∧ i ≠ .cls ∧ decodeWord s.wordAtPc = .op i ∧ exec i s.advance = .next t) ∨
    (s.CanFetch ∧ decodeWord s.wordAtPc = .unknown ∧
      (t = s.advance ∨ (cfg.strictDecode = true ∧ t = s.advance.raiseFault .unknownOpcode s.pc))) := by
  rcases stepWith_cases cfg s with ⟨h0, h'⟩ | ⟨h0, hf, h'⟩ | ⟨w, i, h0, hf, hd, h'⟩ | ⟨w, h0, hf, hd, h'⟩ <;>
    rw [h'] at h
  · cases h
    exact .inl ⟨h0, rfl⟩
  · cases h
    refine .inr (.inl ⟨h0, ?_, rfl⟩)
    by_contra hc
    rw [fetchWord?_eq_some (by omega)] at hf
    cases hf
  · have hc : s.CanFetch := ⟨h0, by have := fetchWord?_bound hf; omega⟩
    rw [fetchWord?_of_canFetch hc] at hf
    cases hf
    rcases execWith_next_cases h with ⟨rfl, rfl⟩ | ⟨he, hne⟩
    · exact .inr (.inr (.inl ⟨hc, hd, rfl⟩))
    · exact .inr (.inr (.inr (.inl ⟨i, hc, hne, hd, he⟩)))
  · have hc : s.CanFetch := ⟨h0, by have := fetchWord?_bound hf; omega⟩
    rw [fetchWord?_of_canFetch hc] at hf
    cases hf
    refine .inr (.inr (.inr (.inr ⟨hc, hd, ?_⟩)))
    unfold execUnknown at h
    split at h <;> cases h
    · exact .inr ⟨‹_›, by rw [instrAddr_advance]⟩
    · exact .inl rfl

/-! ## The loader (70_reset_and_hazards R191 to R193) -/

/-- Everything a load can do. -/
theorem load_cases (file : ProgramFile) (s : State) :
    (∃ bytes, file = some bytes ∧ bytes.length ≤ 0xE00 ∧
      load file s = { s with mem := s.mem.writeBytes progStart bytes, running := true }) ∨
    load file s = loadFailed s := by
  cases file with
  | none => exact .inr rfl
  | some bytes =>
    by_cases h : bytes.length > maxProgram
    · exact .inr (by simp only [load, if_pos h])
    · exact .inl ⟨bytes, rfl, Nat.not_lt.mp h, by simp only [load, if_neg h]⟩

theorem reset_mem_wf : State.reset.mem.wf = true := rfl

end Sys2Proof.Machine
end

