-- ==== Sys2Proof/Laws/PerInstr.lean ====
section
/-! SUPPORT. Facts about every instruction as syntax, one lemma per constructor. Family EncodingRow: the encoder's word
selects the instruction's own row of the opcode table (30_encoding R81). -/

namespace Sys2Proof.Laws.EncodingRow

/-- The word of the instruction selects a row of the opcode table, and the row is the instruction's own. -/
def Statement (i : Instr) : Prop :=
  ∃ row, row ∈ opcodeRows ∧ row.mnemonic = mnemonicOf i ∧ row.selects (encode i) = true

theorem cls : Statement .cls := ⟨⟨"CLS", 0x00E0, 0xFFFF⟩, by simp [opcodeRows], rfl, rfl⟩

theorem jp (nnn : Addr12) : Statement (.jp nnn) :=
  ⟨⟨"JP_nnn", 0x1000, 0xF000⟩, by simp [opcodeRows], rfl,
    beq_iff_eq.mpr ((classMask_eq_iff _ 0x1#4).mpr (fieldCls_class _ _))⟩

theorem ldVx (x : RegIdx) (nn : Byte) : Statement (.ldVx x nn) :=
  ⟨⟨"LD_Vx__nn", 0x6000, 0xF000⟩, by simp [opcodeRows], rfl,
    beq_iff_eq.mpr ((classMask_eq_iff _ 0x6#4).mpr (fieldCls_classXNn _ _ _))⟩

theorem addVx (x : RegIdx) (nn : Byte) : Statement (.addVx x nn) :=
  ⟨⟨"ADD_Vx__nn", 0x7000, 0xF000⟩, by simp [opcodeRows], rfl,
    beq_iff_eq.mpr ((classMask_eq_iff _ 0x7#4).mpr (fieldCls_classXNn _ _ _))⟩

theorem ldI (nnn : Addr12) : Statement (.ldI nnn) :=
  ⟨⟨"LD_I__nnn", 0xA000, 0xF000⟩, by simp [opcodeRows], rfl,
    beq_iff_eq.mpr ((classMask_eq_iff _ 0xA#4).mpr (fieldCls_class _ _))⟩

theorem drw (x y : RegIdx) (n : Nat) : Statement (.drw x y n) :=
  ⟨⟨"DRW_Vx__Vy__n", 0xD000, 0xF000⟩, by simp [opcodeRows], rfl,
    beq_iff_eq.mpr ((classMask_eq_iff _ 0xD#4).mpr (fieldCls_classXYN _ _ _ _))⟩

end Sys2Proof.Laws.EncodingRow
end

