-- ==== Sys2Proof/Tests/Slice0.lean ====
section
/-! SUPPORT. The model's own tests. Every expected value is from spec/ (the vector is named in the docstring), never from the
model. Then, for each obligation with hypotheses, a concrete state and operands that meet all of them. -/

namespace Sys2Proof.Tests

open Sys2Proof Sys2Proof.Machine

/-! ## Well-formedness: an ill-formed term for the one check -/

/-- 30_encoding R78: the height is 0 to 15. -/
theorem test_wellFormed_refuses_height_16 : wellFormed (.drw 0 1 16) = false := by decide
theorem test_wellFormed_takes_height_15 : wellFormed (.drw 0 1 15) = true := by decide

/-! ## Decoding: one word per constructor, written out from the patterns of 30_encoding R81 -/

/-- `0000000011100000` -/
theorem test_decode_cls : decodeWord 0b0000000011100000#16 = .op .cls := by decide
/-- `0001nnnnnnnnnnnn` with nnn = 0x234 (E2) -/
theorem test_decode_jp : decodeWord 0b0001001000110100#16 = .op (.jp 0x234#12) := by decide
/-- `0110xxxxkkkkkkkk` with x = 10, nn = 0x53 -/
theorem test_decode_ldVx : decodeWord 0b0110101001010011#16 = .op (.ldVx 10 0x53#8) := by decide
/-- `0111xxxxkkkkkkkk` with x = 15, nn = 0x05 (V37) -/
theorem test_decode_addVx : decodeWord 0b0111111100000101#16 = .op (.addVx 15 0x05#8) := by decide
/-- `1010nnnnnnnnnnnn` with nnn = 0x200 (E7) -/
theorem test_decode_ldI : decodeWord 0b1010001000000000#16 = .op (.ldI 0x200#12) := by decide
/-- `1101xxxxyyyyhhhh` with x = 2, y = 9, n = 6 -/
theorem test_decode_drw : decodeWord 0b1101001010010110#16 = .op (.drw 2 9 6) := by decide
/-- V7, V8, V9, V15: unknown words -/
theorem test_decode_unknown :
    decodeWord 0x00EE#16 = .unknown ∧ decodeWord 0x00E1#16 = .unknown ∧ decodeWord 0x8014#16 = .unknown ∧
    decodeWord 0xF000#16 = .unknown := by decide
/-- Byte order of the words (V1) and rejection by name. -/
theorem test_decode_bytes :
    decode [0x00#8, 0xE0#8, 0x12#8] = .ok (.cls, [0x12#8]) ∧ decode [0x23#8, 0x45#8] = .error (.unknownWord 0x2345#16) ∧
    decode [0x60#8] = .error .tooShort := by decide
theorem test_decodeTableWord : decodeTableWord 16 0xD125 = some (.drw 1 2 5) := by decide
/-- The encoder against the same patterns. -/
theorem test_encode : encode (.drw 2 9 6) = 0xD296#16 ∧ encode (.addVx 15 5) = 0x7F05#16 := by decide
/-- 30_encoding R81: no two rows of the table overlap. -/
theorem test_opcode_rows_disjoint :
    opcodeRows.Pairwise (fun a b => a.pattern &&& (a.mask &&& b.mask) ≠ b.pattern &&& (a.mask &&& b.mask)) := by decide

/-! ## One step -/

/-- The bytes loaded at 0x200 after a reset (70_reset R192): the core runs, `pc = 0x200`. -/
def loaded (bytes : List Byte) : State := load (some bytes) State.reset

/-- Does one step lead to a next state with this property? -/
def nextHas (p : State → Bool) : Host.Outcome State Fault Refusal → Bool
  | .next s => p s
  | .fault _ => false
  | .refused _ => false

/-- A running core with sprite bytes at 0x300, `I = 0x300`, `V[0]` and `V[1]` as given and one word at 0x200. -/
def sprite (word : Word) (rows : List Byte) (v0 v1 : Byte) : State :=
  { loaded [highByte word, lowByte word] with
    i := 0x300
    v := ((Vector.replicate 16 0).set 0 v0).set 1 v1
    mem := (loaded [highByte word, lowByte word]).mem.writeBytes 0x300 rows }

/-- V50, E4 with `V[15]` of V53: the screen is cleared, `draw` set, `V[15]` kept. -/
theorem test_cls_clears_and_sets_draw :
    nextHas (fun t => !t.fb.get (0, 0) && !t.fb.get (31, 63) && t.draw && t.readV 15 == 1 && t.pc == 0x202)
      (step { (loaded [0x00, 0xE0]).setV 15 1 with fb := (Framebuffer.blank.toggle (0, 0)).toggle (31, 63) }) = true := by
  decide
/-- V51: with CLS_SETS_DRAW = 0 the draw flag is kept. -/
theorem test_cls_keeps_draw_without_the_parameter :
    nextHas (fun t => !t.fb.get (7, 7) && !t.draw)
      (stepWith { defaultConfig with clsSetsDraw := false }
        { loaded [0x00, 0xE0] with fb := Framebuffer.blank.toggle (7, 7) }) = true := by decide
/-- E2, V20: never `A + 2`. -/
theorem test_jp_target : nextHas (fun t => t.pc == 0x234) (step (loaded [0x12, 0x34])) = true := by decide
/-- V26: a jump at 0xFFE avoids the fetch fault. -/
theorem test_jp_at_the_last_word :
    nextHas (fun t => t.pc == 0x200 && t.running)
      (step { loaded [] with pc := 0xFFE, mem := Memory.writeBytes ⟨[]⟩ 0xFFE [0x12, 0x00] }) = true := by decide
/-- V31: `V[15]` as a destination, and no other register (V30's V[0]). -/
theorem test_ldVx_vf :
    nextHas (fun t => t.readV 15 == 0xFF && t.readV 0 == 0 && t.pc == 0x202)
      (step ((loaded [0x6F, 0xFF]).setV 15 1)) = true := by decide
/-- V2: an odd `pc` is fetched. -/
theorem test_ldVx_at_odd_pc :
    nextHas (fun t => t.readV 0 == 7 && t.pc == 0x203) (step { loaded [0x00, 0x60, 0x07] with pc := 0x201 }) = true := by
  decide
/-- V34: the sum wraps and no carry is written. -/
theorem test_addVx_wraps_without_carry :
    nextHas (fun t => t.readV 0 == 0 && t.readV 15 == 0) (step ((loaded [0x70, 0x01]).setV 0 0xFF)) = true := by decide
/-- V37: `V[15]` holds the sum itself. -/
theorem test_addVx_vf : nextHas (fun t => t.readV 15 == 3) (step ((loaded [0x7F, 0x05]).setV 15 0xFE)) = true := by decide
/-- V39, E7. -/
theorem test_ldI : nextHas (fun t => t.i == 0x200 && t.pc == 0x202) (step (loaded [0xA2, 0x00])) = true := by decide
/-- V42: the upper bits of `I` are cleared. -/
theorem test_ldI_clears_high_bits :
    nextHas (fun t => t.i == 0x300) (step ((loaded [0xA3, 0x00]).setI 0xBEEF)) = true := by decide
/-- V61: rows F0 90 at column 2, row 3. -/
theorem test_drw_two_rows :
    nextHas (fun t => t.fb == (([(3, 2), (3, 3), (3, 4), (3, 5), (4, 2), (4, 5)] : List Pixel).foldl
        Framebuffer.toggle Framebuffer.blank) && t.readV 15 == 0 && t.draw && t.pc == 0x202)
      (step (sprite 0xD012 [0xF0, 0x90] 2 3)) = true := by decide
/-- V73, V74: the pixel of row 0 is out of bounds before the byte of row 1 is; `V[15]` is kept. -/
theorem test_drw_first_fault_wins :
    nextHas (fun t => !t.running && faultCauseOut t == 3 && t.faultPc == 0x200 && t.pc == 0x202 && t.readV 15 == 1 &&
        t.fb == Framebuffer.blank && !t.draw)
      (step { (sprite 0xD012 [] 60 0).setV 15 1 with
        i := 0xFFF, mem := Memory.writeBytes ⟨[]⟩ 0x200 [0xD0, 0x12] |>.write 0xFFF 0xFF }) = true := by decide
/-- V6 and V10: an unknown word in the two modes. -/
theorem test_unknown_permissive : nextHas (fun t => t.pc == 0x202 && t.running) (step (loaded [0x23, 0x45])) = true := by
  decide
theorem test_unknown_strict :
    nextHas (fun t => t.pc == 0x202 && !t.running && faultCauseOut t == 4 && t.faultPc == 0x200)
      (stepWith { defaultConfig with strictDecode := true } (loaded [0x23, 0x45])) = true := by decide
/-- V4: the fetch fault at 0x1000. -/
theorem test_fetch_fault :
    nextHas (fun t => t.pc == 0x1000 && !t.running && faultCauseOut t == 1 && t.faultPc == 0x1000)
      (step { loaded [] with pc := 0x1000 }) = true := by decide
/-- V12, V95: the reset core does nothing. -/
theorem test_halted : nextHas (fun t => t == State.reset) (step State.reset) = true := by decide
/-- V93: a missing file. -/
theorem test_load_missing : load none State.reset = { State.reset with faultCause := .loadFailure } := rfl

/-! ## Witnesses: a state and operands that meet the hypotheses of each obligation -/

/-- The last word of memory is `LD V0, 1` and `pc = 0xFFE` (V3). -/
def lastWord : State := { loaded [] with pc := 0xFFE, mem := Memory.writeBytes ⟨[]⟩ 0xFFE [0x60, 0x01] }

def strict : Config := { defaultConfig with strictDecode := true }

theorem witness_DecodingEncodedInstructionsGivesThemBack : wellFormed (.drw 15 15 15) = true := by decide
theorem witness_EncodingDecodedWordsGivesThemBack : decodeWord 0xDFFF#16 = .op (.drw 15 15 15) := by decide
theorem witness_WordsSelectOneRowOrNone : decodeWord 0x6FFF#16 = .op (.ldVx 15 0xFF) := by decide
theorem witness_ResetLeavesTheResetTable :
    defaultConfig.regsAtReset = .zero ∧ (⟨.arbitrary, false, true⟩ : Config).regsAtReset = .arbitrary := by decide
theorem witness_StepRunsTheDecodedInstruction :
    lastWord.running = true ∧ lastWord.pc.toNat + 1 ≤ 0xFFF ∧
    decodeWord (lastWord.mem.byteAt lastWord.pc.toNat ++ lastWord.mem.byteAt (lastWord.pc.toNat + 1)) =
      .op (.ldVx 0 1) ∧ Instr.drw 0 1 15 ≠ .cls := by decide
theorem witness_FetchPastMemoryFaults :
    ({ loaded [] with pc := 0xFFF } : State).running = true ∧ ({ loaded [] with pc := 0xFFF } : State).pc.toNat + 1 > 0xFFF := by
  decide

theorem inv_lastWord : lastWord.Inv := ⟨by decide, by decide, by decide, by decide⟩
theorem inv_fetchFault : ({ loaded [] with pc := 0xFFF } : State).Inv := ⟨by decide, by decide, by decide, by decide⟩

/-- Both sides of the equivalence, at the boundary: `pc = 0xFFE` and `pc = 0xFFF`. -/
theorem witness_FetchFaultDependsOnlyOnPc :
    (lastWord.running = true ∧ lastWord.Inv ∧ ¬ lastWord.pc.toNat + 1 > 0xFFF) ∧
    (({ loaded [] with pc := 0xFFF } : State).running = true ∧ ({ loaded [] with pc := 0xFFF } : State).Inv) :=
  ⟨⟨by decide, inv_lastWord, by decide⟩, by decide, inv_fetchFault⟩
theorem witness_UnknownWordIsNoOpWhenPermissive :
    (loaded [0x23, 0x45]).CanFetch ∧ decodeWord (loaded [0x23, 0x45]).wordAtPc = .unknown ∧
    defaultConfig.strictDecode = false := by decide
theorem witness_UnknownWordFaultsWhenStrict :
    strict.strictDecode = true ∧ (loaded [0x00, 0xEE]).CanFetch ∧ decodeWord (loaded [0x00, 0xEE]).wordAtPc = .unknown := by
  decide
theorem witness_StrictnessAffectsOnlyUnknownWords : decodeWord (loaded [0x00, 0xE0]).wordAtPc = .op .cls := by decide
theorem witness_HaltedCoreDoesNothing : State.reset.running = false := rfl
theorem witness_JumpSetsPcToItsOperand :
    ((loaded [0x1F, 0xFF]).CanFetch ∧ (loaded [0x1F, 0xFF]).wordAtPc &&& 0xF000#16 = 0x1000#16) ∧
    (0xFFF#12).toNat ≥ 0xFFF := by decide
theorem witness_JumpToItselfRunsForever :
    (loaded [0x12, 0x00]).CanFetch ∧ (loaded [0x12, 0x00]).wordAtPc = 0x1000#16 ||| (loaded [0x12, 0x00]).pc := by decide
theorem witness_SetRegisterWritesItsImmediate :
    (loaded [0x6F, 0xFF]).CanFetch ∧ (loaded [0x6F, 0xFF]).wordAtPc &&& 0xF000#16 = 0x6000#16 ∧
    ((loaded [0x6F, 0xFF]).wordAtPc.extractLsb' 8 4).toNat = (15 : RegIdx).val := by decide
theorem witness_AddImmediateAddsModulo256 :
    (loaded [0x7F, 0x05]).CanFetch ∧ (loaded [0x7F, 0x05]).wordAtPc &&& 0xF000#16 = 0x7000#16 ∧
    ((loaded [0x7F, 0x05]).wordAtPc.extractLsb' 8 4).toNat = (15 : RegIdx).val := by decide
theorem witness_SetAddressRegisterLoadsItsOperand :
    (loaded [0xAF, 0xFF]).CanFetch ∧ (loaded [0xAF, 0xFF]).wordAtPc &&& 0xF000#16 = 0xA000#16 := by decide
theorem witness_ClearScreenTurnsEveryCellOff :
    (loaded [0x00, 0xE0]).CanFetch ∧ (loaded [0x00, 0xE0]).wordAtPc = 0x00E0#16 := by decide

/-! ### Sprites at the edges of the grid and of memory -/

/-- V78: fifteen full rows end on screen row 31; the last cell of the last row lies under the sprite, the next column not. -/
def tall : State := sprite 0xD01F (List.replicate 15 0xFF) 0 17

theorem witness_DrawXorsTheSpriteAndReportsCollision :
    SpriteInBounds 0 1 15 tall ∧ tall.AtDrawWord 0 1 15 ∧ UnderSprite 0 1 15 tall (31, 7) ∧ ¬ UnderSprite 0 1 15 tall (31, 8) := by decide
/-- V62: a set bit falls on a cell that is on. -/
theorem witness_DrawXorsTheSpriteAndReportsCollision_collides :
    Collides 0 1 1 { sprite 0xD011 [0xC0] 0 0 with fb := Framebuffer.blank.toggle (0, 0) } :=
  ⟨(0, 0), by decide, by decide⟩
theorem witness_DrawXorsTheSpriteAndReportsCollision_clear : ¬ Collides 0 1 15 tall := by
  rintro ⟨p, -, hon⟩
  have : tall.fb = Framebuffer.blank := rfl
  simp [this] at hon
/-- V65: bits at columns 56 to 63. -/
theorem witness_DrawSetsTheDrawFlagWhenItCompletes :
    SpriteInBounds 0 1 1 (sprite 0xD011 [0xFF] 56 0) ∧ (sprite 0xD011 [0xFF] 56 0).AtDrawWord 0 1 1 ∧
    (sprite 0xD010 [] 56 0).AtDrawWord 0 1 0 := by decide
/-- V72: the byte of row 1 would stand at 0x1000. V76: `I = 0x2000`, row 0. -/
theorem witness_DrawFaultsAtTheFirstAccessOutOfBounds_memory :
    FirstFaultIsMemory 0 1 2 { sprite 0xD012 [] 0 0 with i := 0xFFF, mem := Memory.writeBytes ⟨[]⟩ 0xFFF [0x80] } 1 ∧
    FirstFaultIsMemory 0 1 1 { sprite 0xD011 [] 0 0 with i := 0x2000 } 0 ∧
    ({ sprite 0xD011 [] 0 0 with i := 0x2000 } : State).AtDrawWord 0 1 1 :=
  ⟨by decide, by decide, by decide⟩
/-- V66: bit 0 lands on column 64. V70: row 1 lands on screen row 32. -/
theorem witness_DrawFaultsAtTheFirstAccessOutOfBounds_pixel :
    FirstFaultIsPixel 0 1 1 (sprite 0xD011 [0xFF] 57 0) 0 ∧ FirstFaultIsPixel 0 1 2 (sprite 0xD012 [0x80, 0x80] 0 31) 1 ∧
    (sprite 0xD011 [0xFF] 57 0).AtDrawWord 0 1 1 ∧ (sprite 0xD012 [0x80, 0x80] 0 31).AtDrawWord 0 1 2 :=
  ⟨⟨by decide, by decide, by decide, 7, by decide, by decide, .inl (by decide)⟩,
    ⟨by decide, by decide, by decide, 0, by decide, by decide, .inr (by decide)⟩, by decide, by decide⟩
/-- V68: a row of zeros at column and row 255. -/
theorem witness_BlankSpriteDrawsNothingAnywhere :
    ∀ r, r < 1 → (sprite 0xD011 [0x00] 0xFF 0xFF).i.toNat + r ≤ 0xFFF ∧
      (sprite 0xD011 [0x00] 0xFF 0xFF).mem.byteAt ((sprite 0xD011 [0x00] 0xFF 0xFF).i.toNat + r) = 0#8 := by decide

/-- E5's sprite: one bit at column 10, row 5, on a blank background. -/
def dot : State := sprite 0xD011 [0x80] 0x0A 0x05
/-- The same sprite where its cell is on (V77's background). -/
def dotOn : State := { dot with fb := Framebuffer.blank.toggle (5, 10) }

theorem witness_DrawingTwiceRestoresTheFramebuffer :
    SpriteInBounds 0 1 1 dot ∧ exec (.drw 0 1 1) dot = .next (drawn dot [(5, 10)]) ∧
    (drawn dot [(5, 10)]).readV 0 = dot.readV 0 ∧ (drawn dot [(5, 10)]).readV 1 = dot.readV 1 ∧
    ∃ p, UnderSprite 0 1 1 dot p ∧ dot.fb.get p = false :=
  ⟨by decide, rfl, rfl, rfl, (5, 10), by decide, by decide⟩
theorem witness_DrawingTwiceRestoresTheFramebuffer_on :
    SpriteInBounds 0 1 1 dotOn ∧ exec (.drw 0 1 1) dotOn = .next (drawn dotOn [(5, 10)]) ∧
    (drawn dotOn [(5, 10)]).readV 0 = dotOn.readV 0 ∧ (drawn dotOn [(5, 10)]).readV 1 = dotOn.readV 1 ∧
    ∀ p, UnderSprite 0 1 1 dotOn p → dotOn.fb.get p = true := by
  refine ⟨by decide, rfl, rfl, rfl, ?_⟩
  rintro ⟨r, c⟩ ⟨q, hq, d, hd, hb, h1, h2⟩
  have hq0 : q = 0 := by omega
  have hd0 : d = 0 := by
    subst hq0
    have key : ∀ d, d < 8 → spriteBitSet dotOn 0 d = true → d = 0 := by decide
    exact key d hd hb
  subst hq0 hd0
  have hr : r = 5 := Fin.ext (by simpa [dotOn, dot, sprite, loaded, State.readV] using h1)
  have hc : c = 10 := Fin.ext (by simpa [dotOn, dot, sprite, loaded, State.readV] using h2)
  subst hr hc
  decide
theorem witness_SecondDrawOnBlankBackgroundCollides :
    SpriteInBounds 0 1 1 dot ∧ exec (.drw 0 1 1) dot = .next (drawn dot [(5, 10)]) ∧
    (∀ p, UnderSprite 0 1 1 dot p → dot.fb.get p = false) ∧
    (drawn dot [(5, 10)]).readV 0 = dot.readV 0 ∧ (drawn dot [(5, 10)]).readV 1 = dot.readV 1 ∧ SpriteHasSetBit 1 dot :=
  ⟨by decide, rfl, fun p _ => Framebuffer.get_blank p, rfl, rfl, by decide⟩
/-- A sprite of no rows has no set bit. -/
theorem witness_SecondDrawOnBlankBackgroundCollides_empty :
    SpriteInBounds 0 1 0 dot ∧ exec (.drw 0 1 0) dot = .next (drawn dot []) ∧
    (∀ p, UnderSprite 0 1 0 dot p → dot.fb.get p = false) ∧
    (drawn dot []).readV 0 = dot.readV 0 ∧ (drawn dot []).readV 1 = dot.readV 1 ∧ ¬ SpriteHasSetBit 0 dot :=
  ⟨by decide, rfl, fun p _ => Framebuffer.get_blank p, rfl, rfl, by decide⟩

/-! ### Frames, faults, invariants -/

theorem witness_OnlyDestinationRegistersChange :
    exec (.ldVx 15 0xFF) dot = .next (dot.setV 15 0xFF) ∧ ¬ writesRegister (.ldVx 15 0xFF) 14 :=
  ⟨rfl, by simp [writesRegister]⟩
theorem witness_NoInstructionWritesMemory :
    stepWith defaultConfig dot = .next (drawn dot.advance [(5, 10)]) ∧
    exec (.drw 0 1 1) dot = .next (drawn dot [(5, 10)]) := ⟨rfl, rfl⟩
theorem witness_StepsNeitherReadNorWriteStackOrTimers :
    stepWith defaultConfig dot = .next (drawn dot.advance [(5, 10)]) := rfl
theorem witness_OnlySetAddressRegisterWritesI :
    exec (.drw 0 1 1) dot = .next (drawn dot [(5, 10)]) ∧ ∀ nnn, Instr.drw 0 1 1 ≠ .ldI nnn := ⟨rfl, by simp⟩
theorem witness_OnlyDisplayWordsTouchTheDisplay :
    stepWith defaultConfig lastWord = .next (lastWord.advance.setV 0 1) ∧ decodeWord lastWord.wordAtPc ≠ .op .cls ∧
    ∀ x y n, decodeWord lastWord.wordAtPc ≠ .op (.drw x y n) := by
  have hd : decodeWord lastWord.wordAtPc = .op (.ldVx 0 1) := by decide
  exact ⟨rfl, by simp [hd], by simp [hd]⟩
theorem witness_OnlyJumpWritesPcInExecute :
    exec (.jp 0xFFF) lastWord = .next (lastWord.setPc 0xFFF) ∧
    ((loaded [0x12, 0x34]).CanFetch ∧
      stepWith defaultConfig (loaded [0x12, 0x34]) = .next ((loaded [0x12, 0x34]).advance.setPc 0x234) ∧
      decodeWord (loaded [0x12, 0x34]).wordAtPc = .op (.jp 0x234)) ∧
    (lastWord.CanFetch ∧ stepWith defaultConfig lastWord = .next (lastWord.advance.setV 0 1) ∧
      ∀ nnn, decodeWord lastWord.wordAtPc ≠ .op (.jp nnn)) := by
  have hd : decodeWord lastWord.wordAtPc = .op (.ldVx 0 1) := by decide
  exact ⟨rfl, ⟨by decide, rfl, by decide⟩, by decide, rfl, by simp [hd]⟩
theorem witness_OnlyDrawOutOfBoundsFaults : ∀ x y n, Instr.drw 0 1 1 = .drw x y n → SpriteInBounds x y n dot := by
  intro x y n h
  cases h
  decide
theorem witness_FaultingStepsArePrecise :
    (sprite 0xD011 [0xFF] 57 0).running = true ∧
    stepWith defaultConfig (sprite 0xD011 [0xFF] 57 0) =
      .next ((sprite 0xD011 [0xFF] 57 0).advance.raiseFault .spriteFbOutOfBounds 0x200) ∧
    ((sprite 0xD011 [0xFF] 57 0).advance.raiseFault .spriteFbOutOfBounds 0x200).running = false := ⟨rfl, rfl, rfl⟩
theorem witness_FaultCausesHaveTheirNumbers : causeCode .loadFailure = causeCode .loadFailure := rfl
theorem witness_EveryStepKeepsTheInvariant :
    lastWord.Inv ∧ step lastWord = .next (lastWord.advance.setV 0 1) := ⟨inv_lastWord, rfl⟩
/-- At the boundary: `I = 0xFFF`. -/
theorem witness_EveryStepKeepsTheAddressBound :
    (lastWord.setI 0xFFF).AddressBounded ∧
    stepWith defaultConfig (lastWord.setI 0xFFF) = .next ((lastWord.setI 0xFFF).advance.setV 0 1) := ⟨by decide, rfl⟩

/-! ### The host's side -/

/-- The block right after a reset, and after a load of E5's first words. -/
def freshBlock : Block := ⟨State.reset, true⟩
def loadedBlock : Block := ⟨loaded [0x23, 0x45], false⟩
/-- The block after a load that failed. -/
def failedBlock : Block := ⟨loadFailed State.reset, false⟩

theorem reachable_freshBlock : Reachable defaultConfig freshBlock := .reset (Vector.replicate 16 0) 0
theorem reachable_loadedBlock : Reachable defaultConfig loadedBlock :=
  .event _ _ (.load (some [0x23, 0x45])) reachable_freshBlock rfl
theorem reachable_failedBlock : Reachable defaultConfig failedBlock := .event _ _ (.load none) reachable_freshBlock rfl

theorem witness_EveryReachableBlockKeepsTheInvariants :
    Reachable defaultConfig freshBlock ∧ freshBlock.loadOpen = true ∧ defaultConfig.regsAtReset = .zero ∧
    Reachable defaultConfig loadedBlock := ⟨reachable_freshBlock, rfl, rfl, reachable_loadedBlock⟩
/-- A block whose load window is open, and an event that closes it; and one with a fault recorded. -/
theorem witness_EveryHostEventKeepsTheBlockInvariant :
    freshBlock.Inv defaultConfig ∧ freshBlock.loadOpen = true ∧ defaultConfig.regsAtReset = .zero ∧
    blockEvent defaultConfig freshBlock (.load none) = some failedBlock ∧ failedBlock.Inv defaultConfig :=
  ⟨⟨⟨by decide, by decide, by decide, by decide⟩, by decide, fun _ => by decide, fun _ => ⟨rfl, rfl, fun _ => rfl⟩⟩, rfl, rfl,
    rfl, ⟨⟨by decide, by decide, by decide, by decide⟩, by decide, fun _ => by decide, fun h => by cases h⟩⟩
/-- The longest program: byte 0xDFF stands at 0xFFF (V91). -/
theorem witness_LoadedProgramReadsBack :
    State.reset.mem.wf = true ∧ (List.replicate 0xE00 (0xFF#8)).length ≤ 0xE00 ∧ 0x200 + 0xDFF = 0xFFF :=
  ⟨reset_mem_wf, Nat.le_of_eq List.length_replicate, rfl⟩
theorem witness_SuccessfulLoadStartsTheCore : (List.replicate 0xE00 (0xFF#8)).length ≤ 0xE00 :=
  Nat.le_of_eq List.length_replicate
/-- One byte more (V92), and no file at all (V93). -/
theorem witness_FailedLoadRecordsAndNeverSteps :
    (∀ bytes, some (List.replicate 0xE01 (0xFF#8)) = some bytes → bytes.length > 0xE00) ∧
    ∀ bytes, (none : ProgramFile) = some bytes → bytes.length > 0xE00 := by
  refine ⟨fun bytes h => ?_, fun bytes h => ?_⟩
  · cases h
    rw [List.length_replicate]
    decide
  · cases h
theorem witness_QuitAndRenderAckClearOneFlag : (dot.setDraw true).draw = true ∧ dot.draw = false := ⟨rfl, rfl⟩
theorem witness_RunLoopStepsPollsThenRenders :
    dot.running = true ∧ stepWith defaultConfig dot = .next (drawn dot.advance [(5, 10)]) := ⟨rfl, rfl⟩
theorem witness_OnlyALoadAfterResetSetsRunning :
    blockEvent defaultConfig freshBlock (.load (some [0x23, 0x45])) = some loadedBlock ∧
    freshBlock.core.running = false ∧ loadedBlock.core.running = true := ⟨rfl, rfl, rfl⟩
theorem witness_FaultRecordSurvivesUntilReset :
    Reachable defaultConfig failedBlock ∧ blockEvent defaultConfig failedBlock .step = some failedBlock ∧
    failedBlock.core.faultCause ≠ .none ∧ ∀ freeV freeI, HostEvent.step ≠ .reset freeV freeI :=
  ⟨reachable_failedBlock, rfl, by decide, by simp⟩
theorem witness_DebugReadShowsRegistersAndMemory : (0xFFF : Nat) ≤ 0xFFF ∧ (0x1000 : Nat) > 0xFFF := by decide
theorem witness_PlacedInstructionRunsNext : wellFormed (.drw 0 1 15) = true ∧ State.reset.mem.wf = true := by decide

/-- The host's placement, from a state whose `pc` is past the last word. -/
theorem test_withFetchWord_past_the_end :
    nextHas (fun t => t.readV 3 == 0x42 && t.pc == 0x202)
      (step (({ State.reset with pc := 0x1000 } : State).withFetchWord 16 0x6342)) = true := by decide

end Sys2Proof.Tests
end

section
/-! PROOFS. Family 10_state: what the state holds after a reset, what each step may change, and the invariants every step and
every event of the host keeps. -/

namespace Sys2Proof.Machine

/-! ## The branches of the step (40_cycle R95), each under its guard -/

theorem stepWith_of_halted {cfg : Config} {s : State} (hr : s.running = false) : stepWith cfg s = .next s := by
  simp [stepWith, hr]

theorem stepWith_of_fetch_none {cfg : Config} {s : State} (hr : s.running = true) (hf : fetchWord? s.mem s.pc = none) :
    stepWith cfg s = .next (s.raiseFault .fetchOutOfBounds s.pc) := by
  simp [stepWith, hr, hf]

theorem stepWith_of_op {cfg : Config} {s : State} {w : Word} {i : Instr} (hr : s.running = true)
    (hf : fetchWord? s.mem s.pc = some w) (hd : decodeWord w = .op i) :
    stepWith cfg s = execWith cfg i s.advance := by
  simp [stepWith, hr, hf, hd]

theorem stepWith_of_unknown {cfg : Config} {s : State} {w : Word} (hr : s.running = true)
    (hf : fetchWord? s.mem s.pc = some w) (hd : decodeWord w = .unknown) :
    stepWith cfg s = execUnknown cfg s.advance := by
  simp [stepWith, hr, hf, hd]

/-! ## The branches of Draw sprite and of an unknown word -/

theorem exec_drw_of_ok {x y : RegIdx} {n : Nat} {s : State} {ps : List Pixel}
    (h : spriteTargets s.mem s.i.toNat (s.readV x).toNat (s.readV y).toNat 0 n = .ok ps) :
    exec (.drw x y n) s = .next (drawn s ps) := by
  simp only [exec, execDrw, h, drawn]

theorem exec_drw_of_error {x y : RegIdx} {n : Nat} {s : State} {cause : FaultCause}
    (h : spriteTargets s.mem s.i.toNat (s.readV x).toNat (s.readV y).toNat 0 n = .error cause) :
    exec (.drw x y n) s = .next (s.raiseFault cause s.instrAddr) := by
  simp only [exec, execDrw, h]

/-- The parameters touch no instruction but CLS (00_scope R9). -/
theorem execWith_of_ne_cls {cfg : Config} {i : Instr} {s : State} (h : i ≠ .cls) : execWith cfg i s = exec i s := by
  cases i with
  | cls => exact absurd rfl h
  | jp | ldVx | addVx | ldI | drw => rfl

theorem execUnknown_of_strict {cfg : Config} {s : State} (h : cfg.strictDecode = true) :
    execUnknown cfg s = .next (s.raiseFault .unknownOpcode s.instrAddr) := by
  simp only [execUnknown, h, if_true]

theorem execUnknown_of_permissive {cfg : Config} {s : State} (h : cfg.strictDecode = false) :
    execUnknown cfg s = .next s := by
  simp only [execUnknown, h, Bool.false_eq_true, if_false]

/-- A fetch in bounds leaves `pc` at most 0x1000 (10_state R27): the advance never wraps. -/
theorem State.CanFetch.pc_add_two_le {s : State} (hc : s.CanFetch) : (s.pc + 2).toNat ≤ 0x1000 := by
  obtain ⟨-, hpc⟩ := hc
  rw [BitVec.toNat_add, show (2 : Word).toNat = 2 from rfl]
  omega

/-! ## The invariant of the core, by operation -/

/-- The invariant speaks of memory, `pc`, `running` and the fault record only: a state that has these has the invariant. -/
theorem State.Inv.of_same {s t : State} (h : s.Inv) (hm : t.mem = s.mem := by rfl) (hp : t.pc = s.pc := by rfl)
    (hr : t.running = s.running := by rfl) (hc : t.faultCause = s.faultCause := by rfl)
    (ha : t.faultPc = s.faultPc := by rfl) : t.Inv := by
  obtain ⟨hmem, hpc, hrun, haddr⟩ := h
  exact ⟨hm ▸ hmem, hp ▸ hpc, hr ▸ hc ▸ hrun, hc ▸ ha ▸ haddr⟩

theorem State.Inv.setPc {s : State} {a : Word} (h : s.Inv) (ha : a.toNat ≤ 0x1000) : (s.setPc a).Inv :=
  ⟨h.memory, ha, h.noFaultWhileRunning, h.addressOfNoFault⟩

theorem State.Inv.advance {s : State} (h : s.Inv) (hc : s.CanFetch) : s.advance.Inv :=
  h.setPc hc.pc_add_two_le

/-- Taking a fault halts the core as it records the cause (60_exceptions R166). -/
theorem State.Inv.raiseFault {s : State} {e : FaultCause} {a : Word} (h : s.Inv) (he : e ≠ .none) :
    (s.raiseFault e a).Inv :=
  ⟨h.memory, h.pcBound, (nomatch ·), fun hc => absurd hc he⟩

theorem State.Inv.quit {s : State} (h : s.Inv) : (quit s).Inv :=
  ⟨h.memory, h.pcBound, (nomatch ·), h.addressOfNoFault⟩

/-- A load in its window finds a halted core without a fault, so it neither starts a faulted core nor records a fault in a
running one (70_reset_and_hazards R192, R193). -/
theorem State.Inv.load {s : State} {file : ProgramFile} (h : s.Inv) (hr : s.running = false)
    (hc : s.faultCause = .none) : (load file s).Inv := by
  rcases load_cases file s with ⟨bytes, -, hlen, heq⟩ | heq <;> rw [heq]
  · have hfit : progStart + bytes.length ≤ 4096 := Nat.add_le_add_left hlen progStart
    exact ⟨Memory.wf_writeBytes hfit h.memory, h.pcBound, fun _ => hc, h.addressOfNoFault⟩
  · exact ⟨h.memory, h.pcBound, fun hrun => absurd (hr ▸ hrun) Bool.false_ne_true, fun hnone => nomatch hnone⟩

/-- Every execute phase keeps the invariant: only JP and a fault touch what it speaks of. -/
theorem exec_keeps_inv {i : Instr} {s t : State} (h : s.Inv) (he : exec i s = .next t) : t.Inv := by
  rcases exec_next_cases he with ⟨-, rfl⟩ | ⟨nnn, -, rfl⟩ | ⟨x, nn, -, rfl⟩ | ⟨x, nn, -, rfl⟩ | ⟨nnn, -, rfl⟩ |
    ⟨x, y, n, -, ⟨f, b, rfl⟩ | ⟨e, hcause, rfl⟩⟩
  · exact h.of_same
  · exact h.setPc (le_of_lt (addrOperand_lt nnn))
  · exact h.of_same
  · exact h.of_same
  · exact h.of_same
  · exact h.of_same
  · exact h.raiseFault (by rcases hcause with rfl | rfl <;> exact FaultCause.noConfusion)

theorem stepWith_keeps_inv {cfg : Config} {s t : State} (h : s.Inv) (hs : stepWith cfg s = .next t) : t.Inv := by
  rcases stepWith_next_cases hs with ⟨-, rfl⟩ | ⟨-, -, rfl⟩ | ⟨hc, -, rfl⟩ | ⟨i, hc, -, -, he⟩ |
    ⟨hc, -, rfl | ⟨-, rfl⟩⟩
  · exact h
  · exact h.raiseFault FaultCause.noConfusion
  · exact (h.advance hc).of_same
  · exact exec_keeps_inv (h.advance hc) he
  · exact h.advance hc
  · exact (h.advance hc).raiseFault FaultCause.noConfusion

/-- Settles O39, by the invariant lemma of the step; the fixed name `step` is the step with the default parameters. -/
theorem everyStepKeepsTheInvariant : Obligations.EveryStepKeepsTheInvariant :=
  ⟨fun _ _ => stepWith_keeps_inv, fun _ _ _ => stepWith_keeps_inv⟩

/-! ## What an execute phase may change -/

/-- An execute phase keeps `I`, or it is LD I and sets its operand (10_state R28). -/
theorem exec_i_cases {i : Instr} {s t : State} (he : exec i s = .next t) :
    t.i = s.i ∨ ∃ nnn, i = .ldI nnn ∧ t.i = addrOperand nnn := by
  rcases exec_next_cases he with ⟨-, rfl⟩ | ⟨nnn, -, rfl⟩ | ⟨x, nn, -, rfl⟩ | ⟨x, nn, -, rfl⟩ | ⟨nnn, rfl, rfl⟩ |
    ⟨x, y, n, -, ⟨f, b, rfl⟩ | ⟨e, -, rfl⟩⟩
  · exact .inl rfl
  · exact .inl rfl
  · exact .inl rfl
  · exact .inl rfl
  · exact .inr ⟨nnn, rfl, rfl⟩
  · exact .inl rfl
  · exact .inl rfl

theorem exec_keeps_readV {i : Instr} {k : RegIdx} {s t : State} (he : exec i s = .next t)
    (hk : ¬ writesRegister i k) : t.readV k = s.readV k := by
  rcases exec_next_cases he with ⟨-, rfl⟩ | ⟨nnn, -, rfl⟩ | ⟨x, nn, rfl, rfl⟩ | ⟨x, nn, rfl, rfl⟩ | ⟨nnn, -, rfl⟩ |
    ⟨x, y, n, rfl, ⟨f, b, rfl⟩ | ⟨e, -, rfl⟩⟩
  · rfl
  · rfl
  · exact readV_setV_other s x k nn hk
  · exact readV_setV_other s x k _ hk
  · rfl
  · exact readV_setV_other s flagReg k b hk
  · rfl

/-- The `pc` an execute phase leaves; a faulting draw leaves what it sees (60_exceptions R167). -/
theorem exec_pc {i : Instr} {s t : State} (he : exec i s = .next t) : t.pc = pcAfter i s.pc := by
  rcases exec_next_cases he with ⟨rfl, rfl⟩ | ⟨nnn, rfl, rfl⟩ | ⟨x, nn, rfl, rfl⟩ | ⟨x, nn, rfl, rfl⟩ |
    ⟨nnn, rfl, rfl⟩ | ⟨x, y, n, rfl, ⟨f, b, rfl⟩ | ⟨e, -, rfl⟩⟩ <;> rfl

theorem exec_keeps_display {i : Instr} {s t : State} (he : exec i s = .next t) (hcls : i ≠ .cls)
    (hdrw : ∀ x y n, i ≠ .drw x y n) : t.fb = s.fb ∧ t.draw = s.draw := by
  rcases exec_next_cases he with ⟨rfl, -⟩ | ⟨nnn, -, rfl⟩ | ⟨x, nn, -, rfl⟩ | ⟨x, nn, -, rfl⟩ | ⟨nnn, -, rfl⟩ |
    ⟨x, y, n, rfl, -⟩
  · exact absurd rfl hcls
  · exact ⟨rfl, rfl⟩
  · exact ⟨rfl, rfl⟩
  · exact ⟨rfl, rfl⟩
  · exact ⟨rfl, rfl⟩
  · exact absurd rfl (hdrw x y n)

theorem pcAfter_of_not_jp {i : Instr} (h : ∀ nnn, i ≠ .jp nnn) (pc : Word) : pcAfter i pc = pc := by
  cases i with
  | jp nnn => exact absurd rfl (h nnn)
  | cls | ldVx | addVx | ldI | drw => rfl

/-- Settles O30. -/
theorem onlyDestinationRegistersChange : Obligations.OnlyDestinationRegistersChange :=
  fun _ _ _ _ => exec_keeps_readV

/-- Settles O33: of the two cases for `I`, the second is LD I. -/
theorem onlySetAddressRegisterWritesI : Obligations.OnlySetAddressRegisterWritesI := by
  intro i s t he hne
  obtain heq | ⟨nnn, hi, -⟩ := exec_i_cases he
  · exact heq
  · exact absurd hi (hne nnn)

/-- Settles O34. -/
theorem onlyDisplayWordsTouchTheDisplay : Obligations.OnlyDisplayWordsTouchTheDisplay := by
  intro cfg s t hs hcls hdrw
  rcases stepWith_next_cases hs with ⟨-, rfl⟩ | ⟨-, -, rfl⟩ | ⟨-, hd, -⟩ | ⟨i, -, hne, hd, he⟩ |
    ⟨-, -, rfl | ⟨-, rfl⟩⟩
  · exact ⟨rfl, rfl⟩
  · exact ⟨rfl, rfl⟩
  · exact absurd hd hcls
  · exact exec_keeps_display (s := s.advance) he hne fun x y n hi => hdrw x y n (hi ▸ hd)
  · exact ⟨rfl, rfl⟩
  · exact ⟨rfl, rfl⟩

/-- What a step in bounds leaves in `pc`: where the decoded instruction leaves it, or `pc + 2` for an unknown word. -/
theorem stepWith_pc {cfg : Config} {s t : State} (hc : s.CanFetch) (hs : stepWith cfg s = .next t) :
    (∃ i, decodeWord s.wordAtPc = .op i ∧ t.pc = pcAfter i (s.pc + 2)) ∨
    (decodeWord s.wordAtPc = .unknown ∧ t.pc = s.pc + 2) := by
  obtain ⟨hrun, hpc⟩ := hc
  rcases stepWith_next_cases hs with ⟨hhalt, -⟩ | ⟨-, hout, -⟩ | ⟨-, hd, rfl⟩ | ⟨i, -, -, hd, he⟩ |
    ⟨-, hd, rfl | ⟨-, rfl⟩⟩
  · exact absurd (hhalt ▸ hrun) Bool.false_ne_true
  · omega
  · exact .inl ⟨.cls, hd, rfl⟩
  · exact .inl ⟨i, hd, exec_pc he⟩
  · exact .inr ⟨hd, rfl⟩
  · exact .inr ⟨hd, rfl⟩

/-- Settles O35. -/
theorem onlyJumpWritesPcInExecute : Obligations.OnlyJumpWritesPcInExecute := by
  refine ⟨fun _ _ _ => exec_pc, fun cfg s t hc hs => ?_⟩
  rcases stepWith_pc hc hs with ⟨i, hd, hpc⟩ | ⟨hd, hpc⟩ <;> rw [hd, hpc]
  · refine ⟨fun nnn hi => ?_, fun hne => pcAfter_of_not_jp (fun nnn hi => hne nnn (hi ▸ rfl)) _⟩
    cases hi
    rfl
  · exact ⟨fun _ => (nomatch ·), fun _ => rfl⟩

/-! ## The address bound -/

theorem exec_keeps_addressBounded {i : Instr} {s t : State} (h : s.AddressBounded) (he : exec i s = .next t) :
    t.AddressBounded := by
  obtain heq | ⟨nnn, -, heq⟩ := exec_i_cases he <;> rw [State.AddressBounded, heq]
  · exact h
  · exact Nat.le_of_lt_succ (addrOperand_lt nnn)

theorem stepWith_keeps_addressBounded {cfg : Config} {s t : State} (h : s.AddressBounded)
    (hs : stepWith cfg s = .next t) : t.AddressBounded := by
  rcases stepWith_next_cases hs with ⟨-, rfl⟩ | ⟨-, -, rfl⟩ | ⟨-, -, rfl⟩ | ⟨i, -, -, -, he⟩ |
    ⟨-, -, rfl | ⟨-, rfl⟩⟩
  · exact h
  · exact h
  · exact h
  · exact exec_keeps_addressBounded (s := s.advance) h he
  · exact h
  · exact h

/-- Settles O40: the operand of LD I has 12 bits, and nothing else writes `I`. -/
theorem everyStepKeepsTheAddressBound : Obligations.EveryStepKeepsTheAddressBound :=
  fun _ _ _ => stepWith_keeps_addressBounded

/-! ## The stack, `sp` and the timers play no part in a step (10_state R30 to R32) -/

section Stubs

variable (sp : Byte) (stack : Vector Word 16) (dt st : Byte)

theorem exec_withStubs {i : Instr} {s t : State} (he : exec i s = .next t) :
    exec i (s.withStubs sp stack dt st) = .next (t.withStubs sp stack dt st) := by
  cases i with
  | drw x y n =>
    cases htargets : spriteTargets s.mem s.i.toNat (s.readV x).toNat (s.readV y).toNat 0 n with
    | ok ps =>
      rw [exec_drw_of_ok htargets] at he
      cases he
      exact exec_drw_of_ok (s := s.withStubs sp stack dt st) htargets
    | error cause =>
      rw [exec_drw_of_error htargets] at he
      cases he
      exact exec_drw_of_error (s := s.withStubs sp stack dt st) htargets
  | cls | jp | ldVx | addVx | ldI => cases he; rfl

theorem execWith_withStubs {cfg : Config} {i : Instr} {s t : State} (he : execWith cfg i s = .next t) :
    execWith cfg i (s.withStubs sp stack dt st) = .next (t.withStubs sp stack dt st) := by
  rcases execWith_next_cases he with ⟨rfl, rfl⟩ | ⟨hexec, hne⟩
  · rfl
  · rw [execWith_of_ne_cls hne]
    exact exec_withStubs sp stack dt st hexec

theorem execUnknown_withStubs {cfg : Config} {s t : State} (he : execUnknown cfg s = .next t) :
    execUnknown cfg (s.withStubs sp stack dt st) = .next (t.withStubs sp stack dt st) := by
  cases hstrict : cfg.strictDecode with
  | true => rw [execUnknown_of_strict hstrict] at he ⊢; cases he; rfl
  | false => rw [execUnknown_of_permissive hstrict] at he ⊢; cases he; rfl

/-- A step from the same state with other values in the stubs takes the same branch and carries them over. -/
theorem stepWith_withStubs {cfg : Config} {s t : State} (hs : stepWith cfg s = .next t) :
    stepWith cfg (s.withStubs sp stack dt st) = .next (t.withStubs sp stack dt st) := by
  rcases stepWith_cases cfg s with ⟨hr, h⟩ | ⟨hr, hf, h⟩ | ⟨w, i, hr, hf, hd, h⟩ | ⟨w, hr, hf, hd, h⟩ <;>
    rw [h] at hs
  · cases hs
    exact stepWith_of_halted hr
  · cases hs
    exact stepWith_of_fetch_none hr hf
  · exact (stepWith_of_op (s := s.withStubs sp stack dt st) hr hf hd).trans (execWith_withStubs sp stack dt st hs)
  · exact (stepWith_of_unknown (s := s.withStubs sp stack dt st) hr hf hd).trans (execUnknown_withStubs sp stack dt st hs)

end Stubs

/-- Putting the state's own values back changes nothing, so a step that carries stubs over keeps them. -/
theorem stepWith_eq_withStubs {cfg : Config} {s t : State} (hs : stepWith cfg s = .next t) :
    t = t.withStubs s.sp s.stack s.dt s.st :=
  Host.Outcome.next.inj (hs.symm.trans (stepWith_withStubs s.sp s.stack s.dt s.st hs))

theorem stepWith_keeps_stubs {cfg : Config} {s t : State} (hs : stepWith cfg s = .next t) :
    t.sp = s.sp ∧ t.stack = s.stack ∧ t.dt = s.dt ∧ t.st = s.st := by
  rw [stepWith_eq_withStubs hs]
  exact ⟨rfl, rfl, rfl, rfl⟩

/-- Settles O32: the step commutes with replacing the stubs, and from that it keeps them. -/
theorem stepsNeitherReadNorWriteStackOrTimers : Obligations.StepsNeitherReadNorWriteStackOrTimers := by
  intro cfg s t sp stack dt st hs
  obtain ⟨hsp, hstack, hdt, hst⟩ := stepWith_keeps_stubs hs
  exact ⟨hsp, hstack, hdt, hst, stepWith_withStubs sp stack dt st hs⟩

theorem stepWith_keeps_stubsAtReset {cfg : Config} {s t : State} (h : s.StubsAtReset)
    (hs : stepWith cfg s = .next t) : t.StubsAtReset := by
  obtain ⟨hsp, hstack, hdt, hst⟩ := stepWith_keeps_stubs hs
  rw [State.StubsAtReset, hsp, hstack, hdt, hst]
  exact h

/-! ## Reset (10_state R48) -/

section Reset

variable {cfg : Config} (freeV : Vector Byte 16) (freeI : Word)

theorem resetWith_v_of_zero (h : cfg.regsAtReset = .zero) :
    (State.resetWith cfg freeV freeI).v = Vector.replicate 16 0 := by
  simp only [State.resetWith, h]

theorem resetWith_i_of_zero (h : cfg.regsAtReset = .zero) : (State.resetWith cfg freeV freeI).i = 0 := by
  simp only [State.resetWith, h]

theorem resetWith_v_of_arbitrary (h : cfg.regsAtReset = .arbitrary) : (State.resetWith cfg freeV freeI).v = freeV := by
  simp only [State.resetWith, h]

theorem resetWith_i_of_arbitrary (h : cfg.regsAtReset = .arbitrary) : (State.resetWith cfg freeV freeI).i = freeI := by
  simp only [State.resetWith, h]

theorem resetWith_inv : (State.resetWith cfg freeV freeI).Inv :=
  ⟨Memory.wf_empty, Nat.le_of_ble_eq_true rfl, fun _ => rfl, fun _ => rfl⟩

theorem resetWith_stubsAtReset : (State.resetWith cfg freeV freeI).StubsAtReset :=
  ⟨rfl, rfl, rfl, rfl⟩

theorem resetWith_addressBounded (h : cfg.regsAtReset = .zero) : (State.resetWith cfg freeV freeI).AddressBounded := by
  rw [State.AddressBounded, resetWith_i_of_zero freeV freeI h]
  decide

end Reset

/-- Settles O6. -/
theorem resetLeavesTheResetTable : Obligations.ResetLeavesTheResetTable := by
  refine ⟨fun cfg freeV freeI => ?_, fun _ _ => rfl⟩
  refine ⟨Memory.byteAt_empty, Framebuffer.get_blank, fun hzero => ⟨fun x => ?_, resetWith_i_of_zero freeV freeI hzero⟩,
    fun harb => ⟨resetWith_v_of_arbitrary freeV freeI harb, resetWith_i_of_arbitrary freeV freeI harb⟩,
    rfl, rfl, fun k => ?_, rfl, rfl, rfl, rfl, rfl, rfl⟩
  · rw [resetWith_v_of_zero freeV freeI hzero]
    exact Vector.getElem_replicate _
  · exact Vector.getElem_replicate _

/-- Settles O7. -/
theorem invariantsHoldAfterReset : Obligations.InvariantsHoldAfterReset :=
  ⟨fun _ freeV freeI => ⟨resetWith_inv freeV freeI, resetWith_stubsAtReset freeV freeI, resetWith_addressBounded freeV freeI⟩,
    resetWith_inv _ _, resetWith_stubsAtReset _ _, resetWith_addressBounded _ _ rfl⟩

/-! ## The events of the host (10_state R41) -/

/-- Everything an event that is part of the interface can do. -/
theorem blockEvent_cases {cfg : Config} {b b' : Block} {e : HostEvent} (h : blockEvent cfg b e = some b') :
    (∃ freeV freeI, e = .reset freeV freeI ∧ b' = ⟨State.resetWith cfg freeV freeI, true⟩) ∨
    (∃ file, e = .load file ∧ b.loadOpen = true ∧ b' = ⟨load file b.core, false⟩) ∨
    (∃ t, e = .step ∧ stepWith cfg b.core = .next t ∧ b' = ⟨t, false⟩) ∨
    (e = .quit ∧ b' = ⟨quit b.core, b.loadOpen⟩) ∨
    (e = .renderAck ∧ b' = ⟨renderAck b.core, b.loadOpen⟩) := by
  cases e with
  | reset freeV freeI => cases h; exact .inl ⟨freeV, freeI, rfl, rfl⟩
  | load file =>
    simp only [blockEvent] at h
    split at h
    · cases h; exact .inr (.inl ⟨file, rfl, ‹_›, rfl⟩)
    · cases h
  | step =>
    simp only [blockEvent] at h
    split at h
    · cases h; exact .inr (.inr (.inl ⟨_, rfl, ‹_›, rfl⟩))
    · cases h
    · cases h
  | quit => cases h; exact .inr (.inr (.inr (.inl ⟨rfl, rfl⟩)))
  | renderAck => cases h; exact .inr (.inr (.inr (.inr ⟨rfl, rfl⟩)))

/-- A load writes memory, `running` and the cause of a fault; the registers and the rest stay. -/
theorem load_frame (file : ProgramFile) (s : State) :
    load file s =
      { s with mem := (load file s).mem, running := (load file s).running, faultCause := (load file s).faultCause } := by
  rcases load_cases file s with ⟨bytes, -, -, h⟩ | h
  · rw [h]
  · rw [h]; rfl

theorem load_stubsAtReset {file : ProgramFile} {s : State} (h : s.StubsAtReset) : (load file s).StubsAtReset := by
  rw [load_frame]
  exact h

theorem load_addressBounded {file : ProgramFile} {s : State} (h : s.AddressBounded) : (load file s).AddressBounded := by
  rw [load_frame]
  exact h

theorem resetWith_blockInv (cfg : Config) (freeV : Vector Byte 16) (freeI : Word) :
    Block.Inv cfg ⟨State.resetWith cfg freeV freeI, true⟩ where
  core := resetWith_inv freeV freeI
  stubs := resetWith_stubsAtReset freeV freeI
  address := resetWith_addressBounded freeV freeI
  fresh _ := ⟨rfl, rfl, Memory.byteAt_empty⟩

/-- The event lemma of the block's invariant; a load is in its window, so the core it finds is fresh. -/
theorem blockEvent_keeps_inv {cfg : Config} {b b' : Block} {e : HostEvent} (h : b.Inv cfg)
    (he : blockEvent cfg b e = some b') : b'.Inv cfg := by
  obtain ⟨hcore, hstubs, haddr, hfresh⟩ := h
  rcases blockEvent_cases he with ⟨freeV, freeI, -, rfl⟩ | ⟨file, -, hopen, rfl⟩ | ⟨t, -, hs, rfl⟩ | ⟨-, rfl⟩ | ⟨-, rfl⟩
  · exact resetWith_blockInv cfg freeV freeI
  · obtain ⟨hhalted, hnone, -⟩ := hfresh hopen
    exact ⟨hcore.load hhalted hnone, load_stubsAtReset hstubs, fun hz => load_addressBounded (haddr hz), (nomatch ·)⟩
  · exact ⟨stepWith_keeps_inv hcore hs, stepWith_keeps_stubsAtReset hstubs hs,
      fun hz => stepWith_keeps_addressBounded (haddr hz) hs, (nomatch ·)⟩
  · exact ⟨hcore.quit, hstubs, haddr, fun hl => ⟨rfl, (hfresh hl).2⟩⟩
  · exact ⟨hcore.of_same, hstubs, haddr, hfresh⟩

/-- Settles O51. -/
theorem everyHostEventKeepsTheBlockInvariant : Obligations.EveryHostEventKeepsTheBlockInvariant :=
  ⟨fun _ _ _ _ => blockEvent_keeps_inv, fun cfg _ freeV freeI => ⟨_, rfl, resetWith_blockInv cfg freeV freeI⟩⟩

/-- The block's invariant holds of every block a host can bring about. -/
theorem Reachable.inv {cfg : Config} {b : Block} (h : Reachable cfg b) : b.Inv cfg := by
  induction h with
  | reset freeV freeI => exact resetWith_blockInv cfg freeV freeI
  | event b b' e _ he ih => exact blockEvent_keeps_inv ih he

/-- Settles O41, from the invariant of the reachable blocks. -/
theorem everyReachableBlockKeepsTheInvariants : Obligations.EveryReachableBlockKeepsTheInvariants := by
  intro cfg b h
  obtain ⟨hcore, hstubs, haddr, hfresh⟩ := h.inv
  exact ⟨hcore, hstubs, haddr, hfresh⟩

/-- Settles O47: a reset and a quit leave the core halted, a step and a render acknowledge keep it so, and a failed load
does not start it. -/
theorem onlyALoadAfterResetSetsRunning : Obligations.OnlyALoadAfterResetSetsRunning := by
  intro cfg b b' e he hhalted hrun
  rcases blockEvent_cases he with ⟨freeV, freeI, -, rfl⟩ | ⟨file, rfl, hopen, rfl⟩ | ⟨t, -, hs, rfl⟩ | ⟨-, rfl⟩ | ⟨-, rfl⟩
  · cases hrun
  · rcases load_cases file b.core with ⟨bytes, rfl, hlen, -⟩ | hfail
    · exact ⟨hopen, bytes, rfl, hlen⟩
    · rw [hfail, loadFailed_running, hhalted] at hrun
      cases hrun
  · rw [stepWith_of_halted hhalted] at hs
    cases hs
    exact absurd (hhalted ▸ hrun) Bool.false_ne_true
  · cases hrun
  · exact absurd (hhalted ▸ hrun) Bool.false_ne_true

/-! ## The framebuffer as a sequence (10_state R37) -/

theorem Framebuffer.rowMajor_eq_flatten (fb : Framebuffer) : fb.rowMajor = fb.rows.flatten.toList := by
  change _ = (fb.rows.toArray.map Vector.toArray).flatten.toList
  rw [Array.toList_flatten, Array.toList_map, List.map_map]
  exact List.flatMap_def

/-- Settles O29: the sequence is the flattened vector of rows, whose element `k` is cell `k % 64` of row `k / 64`. -/
theorem framebufferIsRowMajor : Obligations.FramebufferIsRowMajor := by
  intro fb
  rw [fb.rowMajor_eq_flatten]
  refine ⟨Vector.length_toList, fun r c => ?_⟩
  have hlt : r.val * 64 + c.val < 32 * 64 := by omega
  have hrow : (r.val * 64 + c.val) / 64 = r.val := by omega
  have hcol : (r.val * 64 + c.val) % 64 = c.val := by omega
  rw [List.getElem?_eq_getElem (by simpa using hlt), Vector.getElem_toList, Vector.getElem_flatten]
  simp [Framebuffer.get, hrow, hcol]

end Sys2Proof.Machine
end

section
/-! PROOFS. Family 20_memory: no instruction and no step stores; only the loader writes memory (20_memory R52, R63). -/

namespace Sys2Proof.Machine

/-- Each write of an execute phase goes to another field: the registers, `pc`, the display or the fault record. -/
theorem exec_keeps_mem {i : Instr} {s t : State} (he : exec i s = .next t) : t.mem = s.mem := by
  rcases exec_next_cases he with ⟨-, rfl⟩ | ⟨nnn, -, rfl⟩ | ⟨x, nn, -, rfl⟩ | ⟨x, nn, -, rfl⟩ | ⟨nnn, -, rfl⟩ |
    ⟨x, y, n, -, ⟨f, b, rfl⟩ | ⟨e, -, rfl⟩⟩ <;> rfl

/-- Around the execute phase a step only advances `pc` or records a fault. -/
theorem stepWith_keeps_mem {cfg : Config} {s t : State} (hs : stepWith cfg s = .next t) : t.mem = s.mem := by
  rcases stepWith_next_cases hs with ⟨-, rfl⟩ | ⟨-, -, rfl⟩ | ⟨-, -, rfl⟩ | ⟨i, -, -, -, he⟩ |
    ⟨-, -, rfl | ⟨-, rfl⟩⟩
  · rfl
  · rfl
  · rfl
  · exact (exec_keeps_mem he).trans s.advance_mem
  · rfl
  · rfl

/-- Settles O31: the memory as a whole is kept, so every address reads as before. -/
theorem noInstructionWritesMemory : Obligations.NoInstructionWritesMemory :=
  ⟨fun _ _ _ hs a => congrArg (Memory.byteAt · a) (stepWith_keeps_mem hs),
    fun _ _ _ he a => congrArg (Memory.byteAt · a) (exec_keeps_mem he)⟩

end Sys2Proof.Machine
end

section
/-! PROOFS. Family 30_encoding: what a word decodes to, that decoding and encoding are inverse to each other, and that the
decoder is the mask-and-match table. -/

namespace Sys2Proof

/-! ## The decoder by the word's class (30_encoding R80) -/

/-- The word of CLS is of class 0 (30_encoding R82), so a word of another class is not CLS. -/
theorem ne_clsWord_of_fieldCls {w : Word} {c : BitVec 4} (h : fieldCls w = c) (hc : c ≠ 0x0#4) : w ≠ 0x00E0#16 := by
  rintro rfl
  exact hc h.symm

/-- What a word decodes to, with the guard it is decoded under (30_encoding R80). -/
theorem decodeWord_cases (w : Word) :
    (w = 0x00E0#16 ∧ decodeWord w = .op .cls) ∨
    (fieldCls w = 0x1#4 ∧ decodeWord w = .op (.jp (fieldNnn w))) ∨
    (fieldCls w = 0x6#4 ∧ decodeWord w = .op (.ldVx (fieldX w) (fieldNn w))) ∨
    (fieldCls w = 0x7#4 ∧ decodeWord w = .op (.addVx (fieldX w) (fieldNn w))) ∨
    (fieldCls w = 0xA#4 ∧ decodeWord w = .op (.ldI (fieldNnn w))) ∨
    (fieldCls w = 0xD#4 ∧ decodeWord w = .op (.drw (fieldX w) (fieldY w) (fieldN w))) ∨
    (w ≠ 0x00E0#16 ∧ fieldCls w ∉ [0x1#4, 0x6#4, 0x7#4, 0xA#4, 0xD#4] ∧ decodeWord w = .unknown) := by
  unfold decodeWord
  split_ifs with h0 h1 h6 h7 hA hD
  · exact .inl ⟨h0, rfl⟩
  · exact .inr (.inl ⟨h1, rfl⟩)
  · exact .inr (.inr (.inl ⟨h6, rfl⟩))
  · exact .inr (.inr (.inr (.inl ⟨h7, rfl⟩)))
  · exact .inr (.inr (.inr (.inr (.inl ⟨hA, rfl⟩))))
  · exact .inr (.inr (.inr (.inr (.inr (.inl ⟨hD, rfl⟩)))))
  · exact .inr (.inr (.inr (.inr (.inr (.inr ⟨h0, by simp [h1, h6, h7, hA, hD], rfl⟩)))))

theorem decodeWord_of_class1 {w : Word} (h : fieldCls w = 0x1#4) : decodeWord w = .op (.jp (fieldNnn w)) := by
  simp [decodeWord, ne_clsWord_of_fieldCls h, h]

theorem decodeWord_of_class6 {w : Word} (h : fieldCls w = 0x6#4) :
    decodeWord w = .op (.ldVx (fieldX w) (fieldNn w)) := by
  simp [decodeWord, ne_clsWord_of_fieldCls h, h]

theorem decodeWord_of_class7 {w : Word} (h : fieldCls w = 0x7#4) :
    decodeWord w = .op (.addVx (fieldX w) (fieldNn w)) := by
  simp [decodeWord, ne_clsWord_of_fieldCls h, h]

theorem decodeWord_of_classA {w : Word} (h : fieldCls w = 0xA#4) : decodeWord w = .op (.ldI (fieldNnn w)) := by
  simp [decodeWord, ne_clsWord_of_fieldCls h, h]

theorem decodeWord_of_classD {w : Word} (h : fieldCls w = 0xD#4) :
    decodeWord w = .op (.drw (fieldX w) (fieldY w) (fieldN w)) := by
  simp [decodeWord, ne_clsWord_of_fieldCls h, h]

/-- The words of no instruction: not CLS's word and of none of the five classes (30_encoding R86). -/
theorem decodeWord_eq_unknown_iff {w : Word} :
    decodeWord w = .unknown ↔ w ≠ 0x00E0#16 ∧ fieldCls w ∉ [0x1#4, 0x6#4, 0x7#4, 0xA#4, 0xD#4] := by
  rcases decodeWord_cases w with ⟨rfl, hd⟩ | ⟨hc, hd⟩ | ⟨hc, hd⟩ | ⟨hc, hd⟩ | ⟨hc, hd⟩ | ⟨hc, hd⟩ | ⟨hw, hc, hd⟩ <;>
    simp [*]

/-! ## Decoding what was encoded (30_encoding R76, R78, R81) -/

theorem decodeWord_encode {i : Instr} (hi : wellFormed i = true) : decodeWord (encode i) = .op i := by
  cases i with
  | cls => rfl
  | jp nnn =>
    have hc : fieldCls (encode (.jp nnn)) = 0x1#4 := fieldCls_class _ _
    have hnnn : fieldNnn (encode (.jp nnn)) = nnn := fieldNnn_class _ _
    rw [decodeWord_of_class1 hc, hnnn]
  | ldVx x nn =>
    have hc : fieldCls (encode (.ldVx x nn)) = 0x6#4 := fieldCls_classXNn _ _ _
    have hx : fieldX (encode (.ldVx x nn)) = x := Fin.ext ((fieldX_classXNn _ _ _).trans (regBits_toNat x))
    have hnn : fieldNn (encode (.ldVx x nn)) = nn := fieldNn_classXNn _ _ _
    rw [decodeWord_of_class6 hc, hx, hnn]
  | addVx x nn =>
    have hc : fieldCls (encode (.addVx x nn)) = 0x7#4 := fieldCls_classXNn _ _ _
    have hx : fieldX (encode (.addVx x nn)) = x := Fin.ext ((fieldX_classXNn _ _ _).trans (regBits_toNat x))
    have hnn : fieldNn (encode (.addVx x nn)) = nn := fieldNn_classXNn _ _ _
    rw [decodeWord_of_class7 hc, hx, hnn]
  | ldI nnn =>
    have hc : fieldCls (encode (.ldI nnn)) = 0xA#4 := fieldCls_class _ _
    have hnnn : fieldNnn (encode (.ldI nnn)) = nnn := fieldNnn_class _ _
    rw [decodeWord_of_classA hc, hnnn]
  | drw x y n =>
    have hc : fieldCls (encode (.drw x y n)) = 0xD#4 := fieldCls_classXYN _ _ _ _
    have hx : fieldX (encode (.drw x y n)) = x := Fin.ext ((fieldX_classXYN _ _ _ _).trans (regBits_toNat x))
    have hy : fieldY (encode (.drw x y n)) = y := Fin.ext ((fieldY_classXYN _ _ _ _).trans (regBits_toNat y))
    have hle : n ≤ 15 := of_decide_eq_true hi
    have hn : fieldN (encode (.drw x y n)) = n := by
      refine (fieldN_classXYN _ _ _ _).trans ?_
      rw [BitVec.toNat_ofNat, Nat.mod_eq_of_lt (by omega)]
    rw [decodeWord_of_classD hc, hx, hy, hn]

/-- The two bytes of a word that decodes, in front of any other bytes (20_memory R58). -/
theorem decode_bytes {w : Word} {i : Instr} (h : decodeWord w = .op i) (rest : List Byte) :
    decode (highByte w :: lowByte w :: rest) = .ok (i, rest) := by
  simp [decode, h]

theorem decodeTableWord_toNat {w : Word} {i : Instr} (h : decodeWord w = .op i) :
    decodeTableWord 16 w.toNat = some i := by
  simp [decodeTableWord, Nat.mod_eq_of_lt w.isLt, decode_bytes h]

/-- Settles O2: the decoder on words is the left inverse of the encoder, and the two other decoders are it on the word's
bytes. -/
theorem decodingEncodedInstructionsGivesThemBack : Obligations.DecodingEncodedInstructionsGivesThemBack :=
  fun _ hi =>
    have hd := decodeWord_encode hi
    ⟨hd, decode_bytes hd, decodeTableWord_toNat hd⟩

/-! ## Encoding what was decoded (30_encoding R84, R85) -/

theorem fieldN_le (w : Word) : fieldN w ≤ 15 := by
  have := (w.extractLsb' 0 4).isLt
  unfold fieldN
  omega

theorem class_nnn_of_fieldCls {w : Word} {c : BitVec 4} (h : fieldCls w = c) :
    (c ++ fieldNnn w : BitVec (4 + 12)) = w :=
  h ▸ class_nnn_word w

theorem class_x_nn_of_fieldCls {w : Word} {c : BitVec 4} (h : fieldCls w = c) :
    (c ++ regBits (fieldX w) ++ fieldNn w : BitVec (4 + 4 + 8)) = w :=
  h ▸ class_x_nn_word w

theorem class_x_y_n_of_fieldCls {w : Word} {c : BitVec 4} (h : fieldCls w = c) :
    (c ++ regBits (fieldX w) ++ regBits (fieldY w) ++ BitVec.ofNat 4 (fieldN w) : BitVec (4 + 4 + 4 + 4)) = w :=
  h ▸ class_x_y_n_word w

theorem wellFormed_encode_of_decodeWord {w : Word} {i : Instr} (h : decodeWord w = .op i) :
    wellFormed i = true ∧ encode i = w := by
  rcases decodeWord_cases w with ⟨rfl, hd⟩ | ⟨hc, hd⟩ | ⟨hc, hd⟩ | ⟨hc, hd⟩ | ⟨hc, hd⟩ | ⟨hc, hd⟩ | ⟨-, -, hd⟩ <;>
    cases hd.symm.trans h
  · exact ⟨rfl, rfl⟩
  · exact ⟨rfl, class_nnn_of_fieldCls hc⟩
  · exact ⟨rfl, class_x_nn_of_fieldCls hc⟩
  · exact ⟨rfl, class_x_nn_of_fieldCls hc⟩
  · exact ⟨rfl, class_nnn_of_fieldCls hc⟩
  · exact ⟨decide_eq_true (fieldN_le w), class_x_y_n_of_fieldCls hc⟩

/-- Settles O3: the instruction's fields put together again are the word, whose class is the instruction's. -/
theorem encodingDecodedWordsGivesThemBack : Obligations.EncodingDecodedWordsGivesThemBack :=
  fun _ _ => wellFormed_encode_of_decodeWord

/-! ## The opcode table by mask and match (30_encoding R81) -/

theorem OpcodeRow.selects_iff {row : OpcodeRow} {w : Word} : row.selects w = true ↔ w &&& row.mask = row.pattern :=
  beq_iff_eq

/-- The patterns of two rows differ in a bit of both masks. -/
theorem opcodeRows_disjoint :
    ∀ a ∈ opcodeRows, ∀ b ∈ opcodeRows, a.pattern &&& b.mask = b.pattern &&& a.mask → a = b := by
  decide

/-- No word selects two rows. -/
theorem eq_of_selects {a b : OpcodeRow} (ha : a ∈ opcodeRows) (hb : b ∈ opcodeRows) {w : Word}
    (hwa : a.selects w = true) (hwb : b.selects w = true) : a = b := by
  rw [OpcodeRow.selects_iff] at hwa hwb
  refine opcodeRows_disjoint a ha b hb ?_
  rw [← hwa, ← hwb]
  ac_rfl

theorem opcodeRows_mnemonic_injective :
    ∀ a ∈ opcodeRows, ∀ b ∈ opcodeRows, a.mnemonic = b.mnemonic → a = b := by
  decide

theorem encode_selects_own_row (i : Instr) : Laws.EncodingRow.Statement i := by
  cases i with
  | cls => exact Laws.EncodingRow.cls
  | jp nnn => exact Laws.EncodingRow.jp nnn
  | ldVx x nn => exact Laws.EncodingRow.ldVx x nn
  | addVx x nn => exact Laws.EncodingRow.addVx x nn
  | ldI nnn => exact Laws.EncodingRow.ldI nnn
  | drw x y n => exact Laws.EncodingRow.drw x y n

/-- A word that decodes selects the row of its instruction, of which it is the encoding. -/
theorem decodeWord_selects_own_row {w : Word} {i : Instr} (h : decodeWord w = .op i) :
    ∃ row, row ∈ opcodeRows ∧ row.mnemonic = mnemonicOf i ∧ row.selects w = true := by
  obtain ⟨-, rfl⟩ := wellFormed_encode_of_decodeWord h
  exact encode_selects_own_row i

/-- A row is selected by CLS's word only, or by the words of one of the five classes. -/
theorem selects_guard {row : OpcodeRow} (hrow : row ∈ opcodeRows) {w : Word} (h : row.selects w = true) :
    w = 0x00E0#16 ∨ fieldCls w ∈ [0x1#4, 0x6#4, 0x7#4, 0xA#4, 0xD#4] := by
  rw [OpcodeRow.selects_iff] at h
  simp only [opcodeRows, List.mem_cons, List.not_mem_nil, or_false] at hrow
  rcases hrow with rfl | rfl | rfl | rfl | rfl | rfl
  · exact .inl (BitVec.and_allOnes.symm.trans h)
  · simp [(classMask_eq_iff w 0x1#4).mp h]
  · simp [(classMask_eq_iff w 0x6#4).mp h]
  · simp [(classMask_eq_iff w 0x7#4).mp h]
  · simp [(classMask_eq_iff w 0xA#4).mp h]
  · simp [(classMask_eq_iff w 0xD#4).mp h]

theorem decodeWord_eq_unknown_iff_no_row {w : Word} :
    decodeWord w = .unknown ↔ ∀ row ∈ opcodeRows, row.selects w = false := by
  constructor
  · intro h row hrow
    obtain ⟨hw, hc⟩ := decodeWord_eq_unknown_iff.mp h
    exact Bool.eq_false_iff.mpr fun hsel => (selects_guard hrow hsel).elim hw hc
  · intro h
    cases hd : decodeWord w with
    | unknown => rfl
    | op i =>
      obtain ⟨row, hrow, -, hsel⟩ := decodeWord_selects_own_row hd
      exact absurd hsel (Bool.eq_false_iff.mp (h row hrow))

/-- Settles O4: a word selects its own instruction's row, so by disjointness no other, and mnemonics tell rows apart. -/
theorem wordsSelectOneRowOrNone : Obligations.WordsSelectOneRowOrNone := by
  refine fun w => ⟨decodeWord_eq_unknown_iff_no_row, fun i hd row hrow => ?_⟩
  obtain ⟨own, hown, hname, hsel⟩ := decodeWord_selects_own_row hd
  constructor
  · intro h
    rw [eq_of_selects hrow hown h hsel, hname]
  · intro h
    rwa [opcodeRows_mnemonic_injective row hrow own hown (h.trans hname.symm)]

/-! ## The unknown words (30_encoding R82, R83, R86) -/

/-- The sixteen classes: the five of the table, class 0 and the ten others. -/
theorem not_mem_tableClasses_iff : ∀ c : BitVec 4, c ∉ [0x1#4, 0x6#4, 0x7#4, 0xA#4, 0xD#4] ↔
    c = 0x0#4 ∨ c ∈ [0x2#4, 0x3#4, 0x4#4, 0x5#4, 0x8#4, 0x9#4, 0xB#4, 0xC#4, 0xE#4, 0xF#4] := by
  decide

/-- Settles O5: a word of no class of the table is of class 0 or of the ten others, and only class 0 holds CLS's word. -/
theorem unknownWordsAreTheUnlistedOnes : Obligations.UnknownWordsAreTheUnlistedOnes := by
  intro w
  change _ ↔ (fieldCls w = 0x0#4 ∧ w ≠ 0x00E0#16) ∨ fieldCls w ∈ _
  rw [decodeWord_eq_unknown_iff, not_mem_tableClasses_iff]
  constructor
  · rintro ⟨hw, hc | hc⟩
    · exact .inl ⟨hc, hw⟩
    · exact .inr hc
  · rintro (⟨hc, hw⟩ | hc)
    · exact ⟨hw, .inl hc⟩
    · refine ⟨?_, .inr hc⟩
      rintro rfl
      exact absurd hc (by decide)

/-! ## The spec's own words (95_test_vectors) -/

/-- Settles O1: each side is evaluated on a fixed word. -/
theorem specWordsDecodeAsWritten : Obligations.SpecWordsDecodeAsWritten := by
  unfold Obligations.SpecWordsDecodeAsWritten
  decide

end Sys2Proof
end

section
/-! PROOFS. Family 40_cycle: the instruction cycle, the halted core, the host's flags and the run loop. -/

namespace Sys2Proof.Machine

/-! ## The step by the word at `pc` (40_cycle R96 to R104) -/

theorem stepWith_of_fetch_past {cfg : Config} {s : State} (hr : s.running = true) (hpc : s.pc.toNat + 1 > 0xFFF) :
    stepWith cfg s = .next (s.raiseFault .fetchOutOfBounds s.pc) :=
  stepWith_of_fetch_none hr (fetchWord?_eq_none (Nat.le_of_lt_succ hpc))

theorem State.CanFetch.stepWith_op {cfg : Config} {s : State} {i : Instr} (hc : s.CanFetch)
    (hd : decodeWord s.wordAtPc = .op i) : stepWith cfg s = execWith cfg i s.advance :=
  stepWith_of_op hc.1 (fetchWord?_of_canFetch hc) hd

theorem State.CanFetch.step_op {s : State} {i : Instr} (hc : s.CanFetch) (hd : decodeWord s.wordAtPc = .op i) :
    step s = exec i s.advance :=
  (hc.stepWith_op hd).trans (execWith_default i s.advance)

theorem State.CanFetch.stepWith_unknown_permissive {cfg : Config} {s : State} (hc : s.CanFetch)
    (hd : decodeWord s.wordAtPc = .unknown) (hp : cfg.strictDecode = false) : stepWith cfg s = .next s.advance :=
  (stepWith_of_unknown hc.1 (fetchWord?_of_canFetch hc) hd).trans (execUnknown_of_permissive hp)

theorem State.CanFetch.stepWith_unknown_strict {cfg : Config} {s : State} (hc : s.CanFetch)
    (hd : decodeWord s.wordAtPc = .unknown) (hs : cfg.strictDecode = true) :
    stepWith cfg s = .next (s.advance.raiseFault .unknownOpcode s.pc) := by
  rw [stepWith_of_unknown hc.1 (fetchWord?_of_canFetch hc) hd, execUnknown_of_strict hs, instrAddr_advance]

/-- Settles O8. -/
theorem stepRunsTheDecodedInstruction : Obligations.StepRunsTheDecodedInstruction := by
  intro s i hr hpc hd
  have hc : s.CanFetch := ⟨hr, hpc⟩
  exact ⟨hc.step_op hd, fun _ => hc.stepWith_op hd, execWith_default i, fun _ _ _ => execWith_of_ne_cls⟩

/-- Settles O9. -/
theorem fetchPastMemoryFaults : Obligations.FetchPastMemoryFaults :=
  fun _ _ hr hpc => ⟨stepWith_of_fetch_past hr hpc, stepWith_of_fetch_past hr hpc, rfl⟩

/-- Settles O11; the default parameters are permissive (00_scope R9). -/
theorem unknownWordIsNoOpWhenPermissive : Obligations.UnknownWordIsNoOpWhenPermissive :=
  fun _ hc hd => ⟨fun _ => hc.stepWith_unknown_permissive hd, hc.stepWith_unknown_permissive hd rfl⟩

/-- Settles O12. -/
theorem unknownWordFaultsWhenStrict : Obligations.UnknownWordFaultsWhenStrict :=
  fun _ _ hs hc hd => ⟨hc.stepWith_unknown_strict hd hs, rfl⟩

/-- The execute phase of an instruction does not look at STRICT_DECODE: CLS depends on CLS_SETS_DRAW, the others on no
parameter (00_scope R9). -/
theorem execWith_strictDecode (cfg : Config) (strict : Bool) (i : Instr) (s : State) :
    execWith { cfg with strictDecode := strict } i s = execWith cfg i s := by
  cases i <;> rfl

/-- Settles O13: a halted core and a fetch fault come before the decode, and an instruction's execute phase does not
look at STRICT_DECODE. -/
theorem strictnessAffectsOnlyUnknownWords : Obligations.StrictnessAffectsOnlyUnknownWords := by
  intro cfg strict s i hd
  cases hr : s.running with
  | false => rw [stepWith_of_halted hr, stepWith_of_halted hr]
  | true =>
    by_cases hpc : s.pc.toNat + 1 ≤ 0xFFF
    · have hc : s.CanFetch := ⟨hr, hpc⟩
      rw [hc.stepWith_op hd, hc.stepWith_op hd, execWith_strictDecode]
    · have hpast : s.pc.toNat + 1 > 0xFFF := Nat.lt_of_not_le hpc
      rw [stepWith_of_fetch_past hr hpast, stepWith_of_fetch_past hr hpast]

/-! ## The halted core (40_cycle R110) -/

/-- A state that one step leaves as it is stays so for any number of steps. -/
theorem stepsWith_of_fixed {cfg : Config} {s : State} (h : stepWith cfg s = .next s) (k : Nat) :
    stepsWith cfg k s = .next s := by
  induction k with
  | zero => rfl
  | succ k ih => simp only [stepsWith, h, ih]

/-- Settles O14. -/
theorem haltedCoreDoesNothing : Obligations.HaltedCoreDoesNothing :=
  fun _ _ hr => ⟨stepWith_of_halted hr, stepWith_of_halted hr, stepsWith_of_fixed (stepWith_of_halted hr)⟩

/-! ## Which instructions fault (40_cycle R101) -/

/-- Settles O36: a draw in bounds writes `V[15]` and the display only, and no other instruction raises a fault. -/
theorem onlyDrawOutOfBoundsFaults : Obligations.OnlyDrawOutOfBoundsFaults := by
  intro i s hin
  cases i with
  | cls => exact ⟨_, exec_cls s, rfl, rfl, rfl⟩
  | jp nnn => exact ⟨_, exec_jp nnn s, rfl, rfl, rfl⟩
  | ldVx x nn => exact ⟨_, exec_ldVx x nn s, rfl, rfl, rfl⟩
  | addVx x nn => exact ⟨_, exec_addVx x nn s, rfl, rfl, rfl⟩
  | ldI nnn => exact ⟨_, exec_ldI nnn s, rfl, rfl, rfl⟩
  | drw x y n =>
    obtain ⟨ps, -, -, he⟩ := exec_drw_inBounds (hin x y n rfl)
    exact ⟨drawn s ps, he, rfl, rfl, rfl⟩

/-! ## The host's flags and the run loop (10_state R45, 40_cycle R109, R111) -/

theorem renderInput_of_draw {s : State} (h : s.draw = true) : renderInput s = some s.fb := by
  simp only [renderInput, h, if_true, fbView]

theorem renderInput_of_not_draw {s : State} (h : s.draw = false) : renderInput s = none := by
  simp only [renderInput, h, Bool.false_eq_true, if_false]

/-- Settles O45. -/
theorem quitAndRenderAckClearOneFlag : Obligations.QuitAndRenderAckClearOneFlag :=
  fun _ => ⟨rfl, rfl, rfl, renderInput_of_draw, renderInput_of_not_draw⟩

/-- The poll clears `running` exactly when it returns quit. -/
theorem poll_eq (quitSeen : Bool) (s : State) :
    (if quitSeen then quit s else s) = { s with running := s.running && !quitSeen } := by
  cases quitSeen with
  | true => simp [quit]
  | false => simp

/-- The conditional render leaves `draw` cleared exactly when the host may render. -/
theorem render_eq (mayRender : Bool) (s : State) :
    (if s.draw && mayRender then renderAck s else s) = { s with draw := s.draw && !mayRender } := by
  cases mayRender with
  | true =>
    cases hd : s.draw with
    | true => rfl
    | false =>
      change s = s.setDraw false
      rw [← hd]
      rfl
  | false => simp

/-- What follows the step in closed form: the poll, then a render while still running or by the host's choice after a
halt (log entry 9). -/
theorem afterStep_eq (turn : HostTurn) (t : State) :
    afterStep turn t =
      { t with
        running := t.running && !turn.quitSeen
        draw := t.draw && !((t.running && !turn.quitSeen) || turn.renderAfterHalt) } := by
  simp only [afterStep, poll_eq]
  exact render_eq ((t.running && !turn.quitSeen) || turn.renderAfterHalt)
    { t with running := t.running && !turn.quitSeen }

theorem afterStep_running (turn : HostTurn) (t : State) :
    (afterStep turn t).running = (t.running && !turn.quitSeen) := by
  rw [afterStep_eq]

theorem afterStep_draw (turn : HostTurn) (t : State) :
    (afterStep turn t).draw = (t.draw && !((afterStep turn t).running || turn.renderAfterHalt)) := by
  rw [afterStep_eq]

theorem afterStep_frame (turn : HostTurn) (t : State) :
    afterStep turn t = { t with running := (afterStep turn t).running, draw := (afterStep turn t).draw } := by
  rw [afterStep_eq]

theorem runLoopTurn_of_next {cfg : Config} {turn : HostTurn} {s t : State} (hr : s.running = true)
    (hs : stepWith cfg s = .next t) : runLoopTurn cfg turn s = .next (afterStep turn t) := by
  simp only [runLoopTurn, hr, if_true, hs]

/-- Settles O46: `u` is what follows the step, and its frame and two flags are said above. -/
theorem runLoopStepsPollsThenRenders : Obligations.RunLoopStepsPollsThenRenders := by
  intro cfg turn s t hr hs
  refine ⟨afterStep turn t, runLoopTurn_of_next hr hs, afterStep_frame turn t, ?_, ?_, ?_, ?_⟩
  · simp [afterStep_running]
  · intro hrun
    simp [afterStep_draw, hrun]
  · intro hhalt hno
    simp [afterStep_draw, hhalt, hno]
  · intro _ hyes
    simp [afterStep_draw, hyes]

/-! ## The host's placement of one instruction (log entry 6) -/

/-- Where the placed word is fetched from, both its bytes are in memory. -/
theorem fetchAddr_bound (s : State) : (fetchAddr s).toNat + 1 ≤ 0xFFF := by
  unfold fetchAddr
  split
  · decide
  · exact Nat.le_of_not_lt ‹_›

theorem withFetchWord_canFetch (s : State) (nbits w : Nat) : (s.withFetchWord nbits w).CanFetch :=
  ⟨rfl, fetchAddr_bound s⟩

/-- The placed word reads back at `pc`, from any memory in canonical form (70_reset_and_hazards R191). -/
theorem withFetchWord_wordAtPc {s : State} (hw : s.mem.wf = true) (w : Word) :
    (s.withFetchWord 16 w.toNat).wordAtPc = w := by
  have hcut : BitVec.ofNat 16 (w.toNat % 2 ^ 16) = w := by
    rw [Nat.mod_eq_of_lt w.isLt, BitVec.ofNat_toNat, BitVec.setWidth_eq]
  have hmem : (s.withFetchWord 16 w.toNat).mem =
      s.mem.writeBytes (fetchAddr s).toNat [highByte w, lowByte w] := by
    rw [State.withFetchWord, hcut]
  have hfit : (fetchAddr s).toNat + [highByte w, lowByte w].length ≤ 4096 :=
    Nat.add_le_add_right (fetchAddr_bound s) 1
  have hhigh := Memory.byteAt_writeBytes_inside (bs := [highByte w, lowByte w]) (j := 0) Nat.two_pos hfit hw
  have hlow := Memory.byteAt_writeBytes_inside (bs := [highByte w, lowByte w]) (j := 1) Nat.one_lt_two hfit hw
  calc (s.withFetchWord 16 w.toNat).wordAtPc
      = wordOfBytes ((s.withFetchWord 16 w.toNat).mem.byteAt (fetchAddr s).toNat)
          ((s.withFetchWord 16 w.toNat).mem.byteAt ((fetchAddr s).toNat + 1)) := rfl
    _ = wordOfBytes (highByte w) (lowByte w) := by rw [hmem]; exact congrArg₂ wordOfBytes hhigh hlow
    _ = w := wordOfBytes_bytes w

/-- Settles O50. -/
theorem placedInstructionRunsNext : Obligations.PlacedInstructionRunsNext := by
  intro i s hi hw
  refine (withFetchWord_canFetch s 16 _).step_op ?_
  rw [withFetchWord_wordAtPc hw, decodeWord_encode hi]

end Sys2Proof.Machine
end

section
/-! PROOFS. Family 41_control_flow: the jump, and the jump to itself. -/

namespace Sys2Proof.Machine

/-! ## The step of a jump (41_control_flow R115) -/

/-- The jump overwrites the fetch's advance. -/
theorem State.CanFetch.stepWith_jp {cfg : Config} {s : State} {nnn : Addr12} (hc : s.CanFetch)
    (hd : decodeWord s.wordAtPc = .op (.jp nnn)) : stepWith cfg s = .next (s.setPc (addrOperand nnn)) :=
  calc stepWith cfg s
      = execWith cfg (.jp nnn) s.advance := hc.stepWith_op hd
    _ = exec (.jp nnn) s.advance := execWith_of_ne_cls nofun
    _ = .next (s.setPc (addrOperand nnn)) := exec_jp nnn s.advance

/-- Settles O16: a word of the jump's class sets `pc` to its address field, and no fetch succeeds from 0xFFF on. -/
theorem jumpSetsPcToItsOperand : Obligations.JumpSetsPcToItsOperand := by
  refine ⟨exec_jp, fun cfg s hc hw => ?_, fun cfg nnn s hr hpast => ?_⟩
  · have hcls : fieldCls s.wordAtPc = 0x1#4 := (classMask_eq_iff s.wordAtPc 0x1#4).mp hw
    exact hc.stepWith_jp (decodeWord_of_class1 hcls)
  · have htarget : (s.setPc (addrOperand nnn)).pc.toNat + 1 > 0xFFF := by
      rw [State.setPc_pc, addrOperand, BitVec.toNat_setWidth_of_le (by decide)]
      exact Nat.lt_succ_of_le hpast
    exact stepWith_of_fetch_past (s := s.setPc (addrOperand nnn)) hr htarget

/-! ## The jump to itself (41_control_flow R118) -/

/-- An address of the memory is the zero extension of its low 12 bits. -/
theorem addrOperand_setWidth {a : Word} (ha : a.toNat < 4096) : addrOperand (a.setWidth 12) = a := by
  apply BitVec.eq_of_toNat_eq
  simp only [addrOperand, BitVec.toNat_setWidth]
  omega

/-- The word `0x1000 | nnn` is the encoding of `JP nnn` (30_encoding R80). -/
theorem jumpWord_eq_encode (nnn : Addr12) : 0x1000#16 ||| addrOperand nnn = encode (.jp nnn) := rfl

theorem State.CanFetch.stepWith_jump_to_self {cfg : Config} {s : State} (hc : s.CanFetch)
    (hw : s.wordAtPc = 0x1000#16 ||| s.pc) : stepWith cfg s = .next s := by
  have hpc : addrOperand (s.pc.setWidth 12) = s.pc := addrOperand_setWidth (Nat.lt_of_succ_le (Nat.le_succ_of_le hc.2))
  have hd : decodeWord s.wordAtPc = .op (.jp (s.pc.setWidth 12)) := by
    rw [hw, ← decodeWord_encode (i := .jp (s.pc.setWidth 12)) rfl, ← jumpWord_eq_encode, hpc]
  calc stepWith cfg s
      = .next (s.setPc (addrOperand (s.pc.setWidth 12))) := hc.stepWith_jp hd
    _ = .next (s.setPc s.pc) := by rw [hpc]
    _ = .next s := rfl

/-- Settles O17: one step leaves the state as it is, so every number of steps does. -/
theorem jumpToItselfRunsForever : Obligations.JumpToItselfRunsForever :=
  fun _ _ hc hw => stepsWith_of_fixed (hc.stepWith_jump_to_self hw)

end Sys2Proof.Machine
end

section
/-! PROOFS. Family 42_register_ops: LD Vx, ADD Vx and LD I. -/

namespace Sys2Proof.Machine

/-! ## What the rules share -/

/-- Of the instructions only CLS looks at a parameter (00_scope R9). -/
theorem State.CanFetch.stepWith_op_of_ne_cls {cfg : Config} {s : State} {i : Instr} (hc : s.CanFetch)
    (hd : decodeWord s.wordAtPc = .op i) (hi : i ≠ .cls) : stepWith cfg s = exec i s.advance :=
  (hc.stepWith_op hd).trans (execWith_of_ne_cls hi)

theorem fieldX_eq_iff {w : Word} {x : RegIdx} : fieldX w = x ↔ (w.extractLsb' 8 4).toNat = x.val := Fin.ext_iff

/-- The sum of two bytes is the sum of their numbers modulo 256 (42_register_ops R121). -/
theorem byte_add_eq_ofNat_mod (a b : Byte) : a + b = BitVec.ofNat 8 ((a.toNat + b.toNat) % 256) :=
  BitVec.eq_of_toNat_eq (by simp)

/-- The high bits that the zero extension of an address operand adds are 0 (42_register_ops R123). -/
theorem addrOperand_high (nnn : Addr12) : (addrOperand nnn).extractLsb' 12 4 = 0#4 := by
  apply BitVec.eq_of_toNat_eq
  have hlt : nnn.toNat < 2 ^ 12 := nnn.isLt
  simp only [addrOperand, BitVec.extractLsb'_toNat, BitVec.toNat_setWidth, Nat.shiftRight_eq_div_pow,
    BitVec.toNat_ofNat]
  omega

/-! ## The execute phases and the steps (42_register_ops R120, R121, R123) -/

/-- ADD with its sum written over the numbers; `s.v[x]` is read before the write, `x = 15` included. -/
theorem exec_addVx_mod (x : RegIdx) (nn : Byte) (s : State) :
    exec (.addVx x nn) s = .next (s.setV x (BitVec.ofNat 8 ((s.v[x].toNat + nn.toNat) % 256))) := by
  rw [exec_addVx, byte_add_eq_ofNat_mod, State.readV]

/-- Settles O18: a word of class 6 is LD Vx with the word's fields, and the fetch's advance keeps the registers. -/
theorem setRegisterWritesItsImmediate : Obligations.SetRegisterWritesItsImmediate := by
  refine ⟨exec_ldVx, fun cfg s x hc hw hx => ?_⟩
  have hcls : fieldCls s.wordAtPc = 0x6#4 := (classMask_eq_iff s.wordAtPc 0x6#4).mp hw
  calc stepWith cfg s
      = exec (.ldVx (fieldX s.wordAtPc) (fieldNn s.wordAtPc)) s.advance :=
        hc.stepWith_op_of_ne_cls (decodeWord_of_class6 hcls) nofun
    _ = .next (s.advance.setV x (fieldNn s.wordAtPc)) := by rw [fieldX_eq_iff.mpr hx, exec_ldVx]

/-- Settles O19: a word of class 7 is ADD with the word's fields, and the fetch's advance keeps the registers. -/
theorem addImmediateAddsModulo256 : Obligations.AddImmediateAddsModulo256 := by
  refine ⟨exec_addVx_mod, fun cfg s x hc hw hx => ?_⟩
  have hcls : fieldCls s.wordAtPc = 0x7#4 := (classMask_eq_iff s.wordAtPc 0x7#4).mp hw
  calc stepWith cfg s
      = exec (.addVx (fieldX s.wordAtPc) (fieldNn s.wordAtPc)) s.advance :=
        hc.stepWith_op_of_ne_cls (decodeWord_of_class7 hcls) nofun
    _ = .next (s.advance.setV x (BitVec.ofNat 8 ((s.v[x].toNat + (fieldNn s.wordAtPc).toNat) % 256))) := by
        rw [fieldX_eq_iff.mpr hx, exec_addVx_mod, State.advance_v]

/-- Settles O20: a word of class A is LD I with the word's address field. -/
theorem setAddressRegisterLoadsItsOperand : Obligations.SetAddressRegisterLoadsItsOperand := by
  refine ⟨exec_ldI, fun cfg s hc hw => ?_, addrOperand_high⟩
  have hcls : fieldCls s.wordAtPc = 0xA#4 := (classMask_eq_iff s.wordAtPc 0xA#4).mp hw
  calc stepWith cfg s
      = exec (.ldI (fieldNnn s.wordAtPc)) s.advance := hc.stepWith_op_of_ne_cls (decodeWord_of_classA hcls) nofun
    _ = .next (s.advance.setI (addrOperand (fieldNnn s.wordAtPc))) := exec_ldI _ _

end Sys2Proof.Machine
end

section
/-! PROOFS. Family 43_display: Clear screen, what a completed draw leaves, the faults of a draw, and two draws at one place. -/

namespace Sys2Proof.Machine

/-! ## Clear screen (43_display R135) -/

/-- Settles O21: the blank framebuffer has every cell off, and the word of CLS runs CLS after the fetch's advance. -/
theorem clearScreenTurnsEveryCellOff : Obligations.ClearScreenTurnsEveryCellOff := by
  refine ⟨Framebuffer.blank, Framebuffer.get_blank, exec_cls, execWith_cls, fun cfg s hc hw => ?_⟩
  have hd : decodeWord s.wordAtPc = .op .cls := hw ▸ rfl
  exact (hc.stepWith_op hd).trans (execWith_cls cfg s.advance)

/-! ## The state a completed draw leaves (43_display R136, R139, R141) -/

/-- The flag in `V[15]`, the framebuffer replaced and the draw flag set: all that a completed draw writes. -/
def State.withDraw (s : State) (f : Framebuffer) (flag : Byte) : State := ((s.setV flagReg flag).setFb f).setDraw true

@[simp] theorem State.withDraw_fb (s : State) (f : Framebuffer) (flag : Byte) : (s.withDraw f flag).fb = f := rfl
@[simp] theorem State.withDraw_draw (s : State) (f : Framebuffer) (flag : Byte) : (s.withDraw f flag).draw = true := rfl
@[simp] theorem State.withDraw_mem (s : State) (f : Framebuffer) (flag : Byte) : (s.withDraw f flag).mem = s.mem := rfl
@[simp] theorem State.withDraw_i (s : State) (f : Framebuffer) (flag : Byte) : (s.withDraw f flag).i = s.i := rfl

@[simp] theorem State.readV_flagReg_withDraw (s : State) (f : Framebuffer) (flag : Byte) :
    (s.withDraw f flag).readV flagReg = flag := by
  simp [State.withDraw]

/-- The cells toggled once each, and their collision, are the sprite drawn in closed form. -/
theorem spriteDrawn_toggleAll {x y : RegIdx} {n : Nat} {s : State} {ps : List Pixel} (hnd : ps.Nodup)
    (hmem : ∀ p, p ∈ ps ↔ UnderSprite x y n s p) :
    SpriteDrawn x y n s (toggleAll s.fb ps).1 (collisionFlag (toggleAll s.fb ps).2) := by
  have hhit : (toggleAll s.fb ps).2 = true ↔ Collides x y n s := by simp only [toggleAll_hit hnd, hmem]
  refine ⟨fun p hp => ?_, fun p hp => ?_, fun hc => ?_, fun hc => ?_⟩
  · rw [toggleAll_get hnd, decide_eq_true ((hmem p).mpr hp), Bool.xor_true]
  · rw [toggleAll_get hnd, decide_eq_false (mt (hmem p).mp hp), Bool.xor_false]
  · rw [hhit.mpr hc]
    rfl
  · rw [Bool.eq_false_iff.mpr (mt hhit.mp hc)]
    rfl

theorem exec_drw_spriteDrawn {x y : RegIdx} {n : Nat} {s : State} (h : SpriteInBounds x y n s) :
    ∃ f flag, SpriteDrawn x y n s f flag ∧ exec (.drw x y n) s = .next (s.withDraw f flag) := by
  obtain ⟨ps, hnd, hmem, he⟩ := exec_drw_inBounds h
  exact ⟨_, _, spriteDrawn_toggleAll hnd hmem, he⟩

/-- What a draw that was in bounds has left. -/
theorem eq_withDraw_of_exec_drw {x y : RegIdx} {n : Nat} {s t : State} (h : SpriteInBounds x y n s)
    (he : exec (.drw x y n) s = .next t) : ∃ f flag, SpriteDrawn x y n s f flag ∧ t = s.withDraw f flag := by
  obtain ⟨f, flag, hdrawn, he'⟩ := exec_drw_spriteDrawn h
  exact ⟨f, flag, hdrawn, Host.Outcome.next.inj (he.symm.trans he')⟩

/-! ## The step of a draw word -/

theorem decodeWord_of_drawWord {s : State} {x y : RegIdx} {n : Nat} (h : s.AtDrawWord x y n) :
    decodeWord s.wordAtPc = .op (.drw x y n) := by
  obtain ⟨-, hw, hx, hy, hn⟩ := h
  have hcls : fieldCls s.wordAtPc = 0xD#4 := (classMask_eq_iff s.wordAtPc 0xD#4).mp hw
  have hfy : fieldY s.wordAtPc = y := Fin.ext hy
  have hfn : fieldN s.wordAtPc = n := hn
  rw [decodeWord_of_classD hcls, fieldX_eq_iff.mpr hx, hfy, hfn]

theorem stepWith_of_drawWord {cfg : Config} {s : State} {x y : RegIdx} {n : Nat} (h : s.AtDrawWord x y n) :
    stepWith cfg s = exec (.drw x y n) s.advance :=
  h.1.stepWith_op_of_ne_cls (decodeWord_of_drawWord h) nofun

/-- The fetch's advance moves `pc` only, on which no draw depends. -/
theorem SpriteDrawn.of_advance {x y : RegIdx} {n : Nat} {s : State} {f : Framebuffer} {flag : Byte}
    (h : SpriteDrawn x y n s.advance f flag) : SpriteDrawn x y n s f flag :=
  ⟨h.under, h.elsewhere, h.hit, h.noHit⟩

theorem stepWith_drw_spriteDrawn {cfg : Config} {x y : RegIdx} {n : Nat} {s : State} (hw : s.AtDrawWord x y n)
    (h : SpriteInBounds x y n s) :
    ∃ f flag, SpriteDrawn x y n s f flag ∧ stepWith cfg s = .next (s.advance.withDraw f flag) := by
  obtain ⟨f, flag, hdrawn, he⟩ := exec_drw_spriteDrawn (s := s.advance) h
  exact ⟨f, flag, hdrawn.of_advance, (stepWith_of_drawWord hw).trans he⟩

/-- Settles O22: a sprite in bounds is drawn in closed form, by the execute phase and by the step of its word. -/
theorem drawXorsTheSpriteAndReportsCollision : Obligations.DrawXorsTheSpriteAndReportsCollision :=
  ⟨fun _ _ _ _ => exec_drw_spriteDrawn, fun _ _ _ _ _ => stepWith_drw_spriteDrawn⟩

theorem spriteInBounds_zero (x y : RegIdx) (s : State) : SpriteInBounds x y 0 s :=
  fun r hr => absurd hr (Nat.not_lt_zero r)

theorem exec_drw_sets_draw {x y : RegIdx} {n : Nat} {s : State} (h : SpriteInBounds x y n s) :
    ∃ t, exec (.drw x y n) s = .next t ∧ t.draw = true := by
  obtain ⟨f, flag, -, he⟩ := exec_drw_spriteDrawn h
  exact ⟨_, he, s.withDraw_draw f flag⟩

theorem stepWith_drw_sets_draw {cfg : Config} {x y : RegIdx} {n : Nat} {s : State} (hw : s.AtDrawWord x y n)
    (h : SpriteInBounds x y n s) : ∃ t, stepWith cfg s = .next t ∧ t.draw = true := by
  obtain ⟨f, flag, -, he⟩ := stepWith_drw_spriteDrawn (cfg := cfg) hw h
  exact ⟨_, he, s.advance.withDraw_draw f flag⟩

/-- Settles O23: a completed draw sets the flag, and a sprite of no rows is in bounds anywhere. -/
theorem drawSetsTheDrawFlagWhenItCompletes : Obligations.DrawSetsTheDrawFlagWhenItCompletes :=
  ⟨fun _ _ _ _ => exec_drw_sets_draw, fun _ _ _ _ _ => stepWith_drw_sets_draw,
    fun x y s => exec_drw_sets_draw (spriteInBounds_zero x y s),
    fun _ x y s hw => stepWith_drw_sets_draw hw (spriteInBounds_zero x y s)⟩

/-! ## The fault of a draw (43_display R138, 60_exceptions R163, R164) -/

theorem exec_drw_of_memoryFault {x y : RegIdx} {n : Nat} {s : State} {r : Nat} (h : FirstFaultIsMemory x y n s r) :
    exec (.drw x y n) s = .next (s.raiseFault .spriteMemOutOfBounds s.instrAddr) := by
  rcases exec_drw_cases x y n s with ⟨hin, -⟩ | ⟨q, -, he⟩ | ⟨q, hpixel, -⟩
  · exact absurd hin h.not_inBounds
  · exact he
  · exact absurd hpixel h.not_pixel

theorem exec_drw_of_pixelFault {x y : RegIdx} {n : Nat} {s : State} {r : Nat} (h : FirstFaultIsPixel x y n s r) :
    exec (.drw x y n) s = .next (s.raiseFault .spriteFbOutOfBounds s.instrAddr) := by
  rcases exec_drw_cases x y n s with ⟨hin, -⟩ | ⟨q, hmemory, -⟩ | ⟨q, -, he⟩
  · exact absurd hin h.not_inBounds
  · exact absurd h hmemory.not_pixel
  · exact he

/-- A draw that faults after the fetch's advance records the address of its word (40_cycle R102). -/
theorem stepWith_drw_of_fault {cfg : Config} {x y : RegIdx} {n : Nat} {s : State} {cause : FaultCause}
    (hw : s.AtDrawWord x y n) (he : exec (.drw x y n) s.advance = .next (s.advance.raiseFault cause s.advance.instrAddr)) :
    stepWith cfg s = .next (s.advance.raiseFault cause s.pc) := by
  rw [stepWith_of_drawWord hw, he, instrAddr_advance]

theorem spriteInBounds_or_firstFault (x y : RegIdx) (n : Nat) (s : State) :
    SpriteInBounds x y n s ∨ ∃ r, FirstFaultIsMemory x y n s r ∨ FirstFaultIsPixel x y n s r := by
  rcases exec_drw_cases x y n s with ⟨hin, -⟩ | ⟨r, hmemory, -⟩ | ⟨r, hpixel, -⟩
  · exact .inl hin
  · exact .inr ⟨r, .inl hmemory⟩
  · exact .inr ⟨r, .inr hpixel⟩

/-- Settles O24: the three answers of a draw exclude each other, and the fetch's advance leaves the accesses as they are. -/
theorem drawFaultsAtTheFirstAccessOutOfBounds : Obligations.DrawFaultsAtTheFirstAccessOutOfBounds := by
  refine fun x y n s => ⟨fun r h => ?_, fun r h => ?_, spriteInBounds_or_firstFault x y n s⟩
  · exact ⟨exec_drw_of_memoryFault h,
      fun hw _ => stepWith_drw_of_fault hw (exec_drw_of_memoryFault (s := s.advance) h)⟩
  · exact ⟨exec_drw_of_pixelFault h,
      fun hw _ => stepWith_drw_of_fault hw (exec_drw_of_pixelFault (s := s.advance) h)⟩

/-! ## A sprite without a set bit (43_display R142) -/

theorem spriteBitSet_of_row_zero {s : State} {r : Nat} (h : s.mem.byteAt (s.i.toNat + r) = 0#8) (c : Nat) :
    spriteBitSet s r c = false := by
  rw [spriteBitSet, spriteRow, h, BitVec.getLsbD_zero]

/-- Settles O25: no cell lies under the sprite, so the list of cells to toggle is empty. -/
theorem blankSpriteDrawsNothingAnywhere : Obligations.BlankSpriteDrawsNothingAnywhere := by
  intro x y n s hrows
  have hclear : ∀ r, r < n → ∀ c, spriteBitSet s r c ≠ true := fun r hr c =>
    Bool.eq_false_iff.mp (spriteBitSet_of_row_zero (hrows r hr).2 c)
  have hin : SpriteInBounds x y n s := fun r hr => ⟨(hrows r hr).1, fun c _ hb => absurd hb (hclear r hr c)⟩
  obtain ⟨ps, -, hmem, he⟩ := exec_drw_inBounds hin
  have hnil : ps = [] := List.eq_nil_iff_forall_not_mem.mpr fun p hp => by
    obtain ⟨r, hr, c, -, hb, -⟩ := (hmem p).mp hp
    exact hclear r hr c hb
  rw [he, hnil]
  rfl

/-! ## Two draws at one place (43_display R142) -/

/-- The two states hold the same sprite bytes and the same coordinates for a draw with `x` and `y`. -/
structure SamePlacement (x y : RegIdx) (s t : State) : Prop where
  mem : t.mem = s.mem
  addr : t.i = s.i
  column : t.readV x = s.readV x
  row : t.readV y = s.readV y

/-- A completed draw keeps the sprite, so the place is the same when the coordinate registers are. -/
theorem samePlacement_withDraw {x y : RegIdx} {s : State} {f : Framebuffer} {flag : Byte}
    (hx : (s.withDraw f flag).readV x = s.readV x) (hy : (s.withDraw f flag).readV y = s.readV y) :
    SamePlacement x y s (s.withDraw f flag) :=
  ⟨s.withDraw_mem f flag, s.withDraw_i f flag, hx, hy⟩

section TwoDraws

variable {x y : RegIdx} {n : Nat} {s t : State}

theorem SamePlacement.spriteBitSet_eq (h : SamePlacement x y s t) (r c : Nat) :
    spriteBitSet t r c = spriteBitSet s r c := by
  rw [spriteBitSet, spriteBitSet, spriteRow, spriteRow, h.mem, h.addr]

theorem SamePlacement.underSprite_iff (h : SamePlacement x y s t) (p : Pixel) :
    UnderSprite x y n t p ↔ UnderSprite x y n s p := by
  simp only [UnderSprite, h.spriteBitSet_eq, h.column, h.row]

theorem SamePlacement.inBounds (h : SamePlacement x y s t) (hin : SpriteInBounds x y n s) : SpriteInBounds x y n t := by
  simpa only [SpriteInBounds, RowInBounds, h.spriteBitSet_eq, h.addr, h.column, h.row] using hin

/-- Each cell under the sprite is complemented twice, every other one kept twice. -/
theorem SpriteDrawn.restores {g : Framebuffer} {flag₁ flag₂ : Byte} (h : SamePlacement x y s t)
    (hfirst : SpriteDrawn x y n s t.fb flag₁) (hsecond : SpriteDrawn x y n t g flag₂) : g = s.fb := by
  refine Framebuffer.ext_get fun p => ?_
  by_cases hp : UnderSprite x y n s p
  · rw [hsecond.under p ((h.underSprite_iff p).mpr hp), hfirst.under p hp, Bool.not_not]
  · rw [hsecond.elsewhere p (mt (h.underSprite_iff p).mp hp), hfirst.elsewhere p hp]

/-- The second draw finds on exactly the cells that the first found off. -/
theorem SpriteDrawn.collides_again_iff {flag : Byte} (h : SamePlacement x y s t)
    (hfirst : SpriteDrawn x y n s t.fb flag) :
    Collides x y n t ↔ ∃ p, UnderSprite x y n s p ∧ s.fb.get p = false := by
  refine exists_congr fun p => ?_
  rw [h.underSprite_iff]
  refine and_congr_right fun hp => ?_
  rw [hfirst.under p hp, Bool.not_eq_true']

end TwoDraws

/-- Settles O26: the second draw is in bounds as the first was, complements the same cells and collides where the first
found a cell off. -/
theorem drawingTwiceRestoresTheFramebuffer : Obligations.DrawingTwiceRestoresTheFramebuffer := by
  intro x y n s t hin he hx hy
  obtain ⟨f, flag₁, hfirst, rfl⟩ := eq_withDraw_of_exec_drw hin he
  have hsame : SamePlacement x y s (s.withDraw f flag₁) := samePlacement_withDraw hx hy
  have hagain := hfirst.collides_again_iff hsame
  obtain ⟨g, flag₂, hsecond, he'⟩ := exec_drw_spriteDrawn (hsame.inBounds hin)
  have hflag : ((s.withDraw f flag₁).withDraw g flag₂).readV 15 = flag₂ := State.readV_flagReg_withDraw _ _ _
  refine ⟨_, he', hfirst.restores hsame hsecond, fun hoff => ?_, fun hon => ?_⟩
  · exact hflag.trans (hsecond.hit (hagain.mpr hoff))
  · refine hflag.trans (hsecond.noHit fun hc => ?_)
    obtain ⟨p, hp, hpoff⟩ := hagain.mp hc
    exact Bool.false_ne_true (hpoff.symm.trans (hon p hp))

/-- A set bit of a sprite in bounds lies over a cell of the grid. -/
theorem exists_underSprite_iff {x y : RegIdx} {n : Nat} {s : State} (hin : SpriteInBounds x y n s) :
    (∃ p, UnderSprite x y n s p) ↔ SpriteHasSetBit n s := by
  constructor
  · rintro ⟨p, r, hr, c, hc, hb, -⟩
    exact ⟨r, hr, c, hc, hb⟩
  · rintro ⟨r, hr, c, hc, hb⟩
    obtain ⟨hcol, hrow⟩ := (hin r hr).2 c hc hb
    exact ⟨(⟨(s.readV y).toNat + r, Nat.lt_succ_of_le hrow⟩, ⟨(s.readV x).toNat + c, Nat.lt_succ_of_le hcol⟩),
      r, hr, c, hc, hb, rfl, rfl⟩

/-- Settles O27: on cells that are off the first draw finds none on, and by O26 the second collides when there is a cell
under the sprite. -/
theorem secondDrawOnBlankBackgroundCollides : Obligations.SecondDrawOnBlankBackgroundCollides := by
  intro x y n s t hin he hoff hx hy
  obtain ⟨u, he', -, hhit, hnoHit⟩ := drawingTwiceRestoresTheFramebuffer x y n s t hin he hx hy
  refine ⟨?_, u, he', fun hbit => ?_, fun hbit => ?_⟩
  · obtain ⟨f, flag, hfirst, rfl⟩ := eq_withDraw_of_exec_drw hin he
    refine (State.readV_flagReg_withDraw _ _ _).trans (hfirst.noHit ?_)
    rintro ⟨p, hp, hon⟩
    exact Bool.false_ne_true ((hoff p hp).symm.trans hon)
  · obtain ⟨p, hp⟩ := (exists_underSprite_iff hin).mpr hbit
    exact hhit ⟨p, hp, hoff p hp⟩
  · exact hnoHit fun p hp => absurd ((exists_underSprite_iff hin).mp ⟨p, hp⟩) hbit

/-! ## A second draw that does not collide (log entry 12) -/

/-- A core whose screen is all on, with a sprite of one bit at `I`, to be drawn at the top left cell. -/
def litCore : State :=
  { State.reset with i := 0x300, mem := ⟨[(0x300, 0x80)]⟩, fb := ⟨Vector.replicate 32 (Vector.replicate 64 true)⟩ }

theorem litCore_get (p : Pixel) : litCore.fb.get p = true := by
  simp [litCore, Framebuffer.get]

/-- Settles O28: the first draw turns the one lit cell off, so the second finds it off. -/
theorem secondDrawNeedNotCollide : Obligations.SecondDrawNeedNotCollide :=
  ⟨0, 1, 1, litCore, drawn litCore [(0, 0)], drawn (drawn litCore [(0, 0)]) [(0, 0)], by decide, by decide,
    fun p _ => litCore_get p, rfl, rfl, rfl, rfl, rfl, rfl⟩

end Sys2Proof.Machine
end

section
/-! PROOFS. Family 60_exceptions: every fault is a next state, what a fault changes, that its record stays until a reset, and
what the host can read of it. -/

namespace Sys2Proof.Machine

/-! ## Every step answers a next state -/

theorem exec_answers_next (i : Instr) (s : State) : ∃ t, exec i s = .next t := by
  cases i with
  | cls => exact ⟨_, exec_cls s⟩
  | jp nnn => exact ⟨_, exec_jp nnn s⟩
  | ldVx x nn => exact ⟨_, exec_ldVx x nn s⟩
  | addVx x nn => exact ⟨_, exec_addVx x nn s⟩
  | ldI nnn => exact ⟨_, exec_ldI nnn s⟩
  | drw x y n =>
    rcases exec_drw_cases x y n s with ⟨-, ps, -, -, h⟩ | ⟨r, -, h⟩ | ⟨r, -, h⟩
    · exact ⟨_, h⟩
    · exact ⟨_, h⟩
    · exact ⟨_, h⟩

theorem execWith_answers_next (cfg : Config) (i : Instr) (s : State) : ∃ t, execWith cfg i s = .next t := by
  by_cases hi : i = .cls
  · subst hi
    exact ⟨_, execWith_cls cfg s⟩
  · rw [execWith_of_ne_cls hi]
    exact exec_answers_next i s

theorem execUnknown_answers_next (cfg : Config) (s : State) : ∃ t, execUnknown cfg s = .next t := by
  cases h : cfg.strictDecode with
  | false => exact ⟨_, execUnknown_of_permissive h⟩
  | true => exact ⟨_, execUnknown_of_strict h⟩

theorem stepWith_answers_next (cfg : Config) (s : State) : ∃ t, stepWith cfg s = .next t := by
  rcases stepWith_cases cfg s with ⟨-, h⟩ | ⟨-, -, h⟩ | ⟨w, i, -, -, -, h⟩ | ⟨w, -, -, -, h⟩
  · exact ⟨_, h⟩
  · exact ⟨_, h⟩
  · rw [h]
    exact execWith_answers_next cfg i s.advance
  · rw [h]
    exact execUnknown_answers_next cfg s.advance

/-- Settles O15; the fixed name `step` is the step with the default parameters. -/
theorem everyStepAnswersANextState : Obligations.EveryStepAnswersANextState :=
  fun cfg s => ⟨stepWith_answers_next cfg s, stepWith_answers_next defaultConfig s, fun i => exec_answers_next i s⟩

/-! ## What a fault changes (60_exceptions R166 to R168) -/

/-- `t` has the running flag and the fault record of `s`. -/
structure SameFaultState (s t : State) : Prop where
  running : t.running = s.running
  faultCause : t.faultCause = s.faultCause
  faultPc : t.faultPc = s.faultPc

/-- An execute phase touches `running` and the fault record only to take one of the two faults of Draw sprite. -/
theorem exec_fault_cases {i : Instr} {s t : State} (he : exec i s = .next t) :
    SameFaultState s t ∨
    ∃ e, (e = .spriteMemOutOfBounds ∨ e = .spriteFbOutOfBounds) ∧ t = s.raiseFault e s.instrAddr := by
  rcases exec_next_cases he with ⟨-, rfl⟩ | ⟨nnn, -, rfl⟩ | ⟨x, nn, -, rfl⟩ | ⟨x, nn, -, rfl⟩ | ⟨nnn, -, rfl⟩ |
    ⟨x, y, n, -, ⟨f, b, rfl⟩ | hfault⟩
  · exact .inl ⟨rfl, rfl, rfl⟩
  · exact .inl ⟨rfl, rfl, rfl⟩
  · exact .inl ⟨rfl, rfl, rfl⟩
  · exact .inl ⟨rfl, rfl, rfl⟩
  · exact .inl ⟨rfl, rfl, rfl⟩
  · exact .inl ⟨rfl, rfl, rfl⟩
  · exact .inr hfault

/-- The causes an execute phase can raise; the fetch fault precludes it (60_exceptions R168). -/
abbrev executeFaults : List FaultCause := [.spriteMemOutOfBounds, .spriteFbOutOfBounds, .unknownOpcode]

theorem ne_fetchOutOfBounds_of_mem_executeFaults {e : FaultCause} (h : e ∈ executeFaults) : e ≠ .fetchOutOfBounds := by
  rintro rfl
  exact absurd h (by decide)

/-- A step takes no fault, the fetch fault before the advance, or a fault of the execute phase after it; the address
recorded is the instruction's either way. -/
theorem stepWith_fault_cases {cfg : Config} {s t : State} (hs : stepWith cfg s = .next t) :
    SameFaultState s t ∨
    (s.pc.toNat + 1 > 0xFFF ∧ t = s.raiseFault .fetchOutOfBounds s.pc) ∨
    (∃ e, e ∈ executeFaults ∧ t = s.advance.raiseFault e s.pc) := by
  rcases stepWith_next_cases hs with ⟨-, rfl⟩ | ⟨-, hpc, rfl⟩ | ⟨-, -, rfl⟩ | ⟨i, -, -, -, he⟩ | ⟨-, -, rfl | ⟨-, rfl⟩⟩
  · exact .inl ⟨rfl, rfl, rfl⟩
  · exact .inr (.inl ⟨Nat.lt_succ_of_le hpc, rfl⟩)
  · exact .inl ⟨rfl, rfl, rfl⟩
  · rcases exec_fault_cases he with ⟨hrun, hcause, haddr⟩ | ⟨e, hcause, rfl⟩
    · exact .inl ⟨hrun, hcause, haddr⟩
    · rw [instrAddr_advance]
      exact .inr (.inr ⟨e, by rcases hcause with rfl | rfl <;> decide, rfl⟩)
  · exact .inl ⟨rfl, rfl, rfl⟩
  · exact .inr (.inr ⟨.unknownOpcode, by decide, rfl⟩)

/-- Settles O37: the core ran before and is halted after, so the step took one of the faults. -/
theorem faultingStepsArePrecise : Obligations.FaultingStepsArePrecise := by
  intro cfg s t hr hs hhalted
  rcases stepWith_fault_cases hs with hsame | ⟨-, rfl⟩ | ⟨e, he, rfl⟩
  · exact absurd (hhalted.symm.trans (hsame.running.trans hr)) Bool.false_ne_true
  · exact ⟨rfl, List.mem_cons_self⟩
  · refine ⟨?_, List.mem_cons_of_mem _ he⟩
    rw [State.raiseFault_faultCause, if_neg (ne_fetchOutOfBounds_of_mem_executeFaults he)]
    rfl

/-- Settles O10: past 0xFFF the fetch fault is taken; in bounds the step leaves no cause, as the invariant says of a running
core, or one of the execute phase. -/
theorem fetchFaultDependsOnlyOnPc : Obligations.FetchFaultDependsOnlyOnPc := by
  intro cfg s hr hinv
  obtain ⟨t, hs⟩ := stepWith_answers_next cfg s
  refine ⟨t, hs, fun hcause => ?_, fun hpc => ?_⟩
  · rcases stepWith_fault_cases hs with hsame | ⟨hpc, -⟩ | ⟨e, he, rfl⟩
    · rw [hsame.faultCause, hinv.noFaultWhileRunning hr] at hcause
      cases hcause
    · exact hpc
    · exact absurd hcause (ne_fetchOutOfBounds_of_mem_executeFaults he)
  · rw [stepWith_of_fetch_past hr hpc] at hs
    cases hs
    rfl

/-! ## A recorded fault stays until a reset (60_exceptions R169) -/

theorem State.Inv.halted_of_fault {s : State} (h : s.Inv) (hf : s.faultCause ≠ .none) : s.running = false :=
  Bool.eq_false_iff.mpr fun hr => hf (h.noFaultWhileRunning hr)

/-- Settles O48: a core with a fault recorded is halted, so a step leaves it as it is, and its load window is closed. -/
theorem faultRecordSurvivesUntilReset : Obligations.FaultRecordSurvivesUntilReset := by
  intro cfg b b' e hb he hfault hreset
  have hhalted : b.core.running = false := hb.inv.core.halted_of_fault hfault
  rcases blockEvent_cases he with ⟨freeV, freeI, rfl, -⟩ | ⟨file, -, hopen, -⟩ | ⟨t, -, hs, rfl⟩ | ⟨-, rfl⟩ | ⟨-, rfl⟩
  · exact absurd rfl (hreset freeV freeI)
  · obtain ⟨-, hnone, -⟩ := hb.inv.fresh hopen
    exact absurd hnone hfault
  · rw [stepWith_of_halted hhalted] at hs
    cases hs
    exact ⟨rfl, rfl, hhalted⟩
  · exact ⟨rfl, rfl, rfl⟩
  · exact ⟨rfl, rfl, hhalted⟩

/-! ## What the host reads (60_exceptions R161, R178) -/

/-- The cause of a number of the table, by its place there (60_exceptions R161). -/
def causeOfCode (c : BitVec 3) : FaultCause :=
  [.none, .fetchOutOfBounds, .spriteMemOutOfBounds, .spriteFbOutOfBounds, .unknownOpcode, .loadFailure].getD c.toNat .none

theorem causeOfCode_causeCode : Function.LeftInverse causeOfCode causeCode := by
  intro c
  cases c <;> rfl

theorem causeCode_le (c : FaultCause) : causeCode c ≤ 5#3 := by
  cases c <;> decide

/-- Settles O38: the table has an inverse, and its greatest number is 5. -/
theorem faultCausesHaveTheirNumbers : Obligations.FaultCausesHaveTheirNumbers := by
  refine ⟨rfl, rfl, rfl, rfl, rfl, rfl, fun _ _ h => causeOfCode_causeCode.injective h,
    fun s => ⟨fun h => ?_, fun h => ?_⟩⟩
  · exact absurd (h ▸ causeCode_le s.faultCause : 6#3 ≤ 5#3) (by decide)
  · exact absurd (h ▸ causeCode_le s.faultCause : 7#3 ≤ 5#3) (by decide)

/-- Settles O49: a byte is read by the checked read of memory (20_memory R56). -/
theorem debugReadShowsRegistersAndMemory : Obligations.DebugReadShowsRegistersAndMemory :=
  fun _ => ⟨rfl, fun _ => Memory.read?_eq_some, fun _ => Memory.read?_eq_none⟩

end Sys2Proof.Machine
end

section
/-! PROOFS. Family 70_reset_and_hazards: what a load that fits writes, and what a load that fails leaves. -/

namespace Sys2Proof.Machine

/-! ## The two outcomes of a load, by its file (70_reset_and_hazards R191 to R193) -/

theorem load_of_fits {bytes : List Byte} (s : State) (h : bytes.length ≤ 0xE00) :
    load (some bytes) s = { s with mem := s.mem.writeBytes progStart bytes, running := true } := by
  simp only [load, if_neg (Nat.not_lt.mpr h)]

theorem load_of_not_fits {file : ProgramFile} (s : State) (h : ∀ bytes, file = some bytes → bytes.length > 0xE00) :
    load file s = loadFailed s := by
  rcases load_cases file s with ⟨bytes, hfile, hfits, -⟩ | hfailed
  · exact absurd hfits (Nat.not_le.mpr (h bytes hfile))
  · exact hfailed

/-! ## A load that fits (70_reset_and_hazards R191, R192) -/

/-- Settles O42: a program that fits ends below MEM_SIZE, so the rules of consecutive writes apply from PROG_START. -/
theorem loadedProgramReadsBack : Obligations.LoadedProgramReadsBack := by
  intro bytes s hwf hlen
  have hfit : progStart + bytes.length ≤ 4096 := Nat.add_le_add_left hlen progStart
  rw [load_of_fits s hlen]
  exact ⟨fun _ hk => Memory.byteAt_writeBytes_inside hk hfit hwf, fun _ => Memory.byteAt_writeBytes_outside, rfl,
    Memory.wf_writeBytes hfit hwf⟩

/-- Settles O43. -/
theorem successfulLoadStartsTheCore : Obligations.SuccessfulLoadStartsTheCore := by
  refine ⟨fun bytes s hlen => ?_, fun s => load_of_fits s (Nat.zero_le _)⟩
  rw [load_of_fits s hlen]
  exact ⟨rfl, rfl, rfl⟩

/-! ## A load that fails (70_reset_and_hazards R193) -/

/-- A failed load does not start a halted core, so no step changes what it leaves (40_cycle R110). -/
theorem stepsWith_loadFailed_of_halted {cfg : Config} {s : State} (hr : s.running = false) (k : Nat) :
    stepsWith cfg k (loadFailed s) = .next (loadFailed s) :=
  stepsWith_of_fixed (stepWith_of_halted (s := loadFailed s) hr) k

/-- Settles O44: a reset leaves the core halted. -/
theorem failedLoadRecordsAndNeverSteps : Obligations.FailedLoadRecordsAndNeverSteps := by
  intro file s hfile
  refine ⟨load_of_not_fits s hfile, rfl, fun cfg freeV freeI k => ?_⟩
  rw [load_of_not_fits _ hfile]
  exact stepsWith_loadFailed_of_halted rfl k

end Sys2Proof.Machine
end
